-- ==== Sys2Proof/Word.lean ====
section
/-! DEFINITION. The words of the block: 32-bit registers (spec/10_state.md R21), the 128-bit values that four of them form
(spec/20_memory.md R55), and bit sequences (spec/00_scope.md R11). -/

namespace Sys2Proof

/-- One byte lane of a register word (20_memory.md R54). -/
abbrev Byte := BitVec 8

/-- One register of the window (10_state.md R21). -/
abbrev Word := BitVec 32

/-- The value four registers form: DINV, DOUTV, QUOTV (20_memory.md R55). -/
abbrev Wide := BitVec 128

/-- A bit sequence, first (most significant) element first; it may be empty (00_scope.md R11). -/
abbrev BitSeq := List Bool

end Sys2Proof
end

