-- ==== Sys2Proof/Syntax.lean ====
section
/-! DEFINITION. The instructions: the four commands of spec/opcode_table.json (spec/30_encoding.md R71). The command word has
no immediate, register-number or mode field (R73), so no constructor has an argument: every operand is in the snapshot. -/

namespace Sys2Proof

/-- One constructor per row of the opcode table. -/
inductive Instr where
  /-- Construct the codec: load and validate the generator polynomial (40_polynomial.md R100). -/
  | setpoly
  /-- Divide DIN by the held polynomial over GF(2) (41_divider.md R131). -/
  | divide
  /-- Append the CRC check bits to DIN (42_codec.md R150). -/
  | encode
  /-- Verify the received sequence in DIN (42_codec.md R155). -/
  | decode
deriving DecidableEq, Repr

end Sys2Proof
end

