-- ==== Sys2Proof/Decode.lean ====
section
/-! DEFINITION. The command word: its fields, the decoder (total on all 2^32 words) and the encoder, both from spec/30_encoding.md
R70 to R72; byte lanes (spec/20_memory.md R54); the disassembler of R77. -/

namespace Sys2Proof

/-- OP, bits 3:0 of the command word (R70). -/
def opField (w : Word) : BitVec 4 := w.extractLsb' 0 4

/-- RSVD, bits 31:4 of the command word, which must be 0 (R70). -/
def rsvdField (w : Word) : BitVec 28 := w.extractLsb' 4 28

/-- Why a word is no command (R72). Both reasons are IllegalCommand at Complete (60_exceptions.md R205). -/
inductive IllegalReason where
  /-- `word[31:4] != 0`. -/
  | reservedBits
  /-- `word[31:4] = 0` and `word[3:0]` is 0x0 or one of 0x5 to 0xF. -/
  | unusedOp
deriving DecidableEq, Repr

/-- What the decoder reads in a word: every word is one of the four commands or illegal (R72). -/
inductive Decoded where
  | command (i : Instr)
  | illegal (why : IllegalReason)
deriving DecidableEq, Repr

/-- The opcode map of R71, in the order of its pseudocode: reserved bits first, then OP. -/
def decode (w : Word) : Decoded :=
  if rsvdField w ≠ 0 then .illegal .reservedBits
  else if opField w = 0x1#4 then .command .setpoly
  else if opField w = 0x2#4 then .command .divide
  else if opField w = 0x3#4 then .command .encode
  else if opField w = 0x4#4 then .command .decode
  else .illegal .unusedOp

/-- The OP value of a command, from the opcode map (R71). -/
def opOf : Instr → BitVec 4
  | .setpoly => 0x1#4
  | .divide => 0x2#4
  | .encode => 0x3#4
  | .decode => 0x4#4

/-- The command word: RSVD = 0 above OP (R70). -/
def encode (i : Instr) : Word := 0#28 ++ opOf i

/-- Byte lane `j` carries bits `[8j+7:8j]` (20_memory.md R54). -/
def byteLane (w : Word) (j : Nat) : Byte := w.extractLsb' (8 * j) 8

/-- The four byte lanes of a word, lane 0 first. -/
def wordLanes (w : Word) : List Byte := [byteLane w 0, byteLane w 1, byteLane w 2, byteLane w 3]

/-- The word whose lanes 0 to 3 are given (R54). -/
def wordOfLanes (b0 b1 b2 b3 : Byte) : Word := b3 ++ b2 ++ b1 ++ b0

/-- Decoding from byte lanes: exactly one word per command (R70). Answers the command and the bytes after it; none where the
bytes are fewer than four or the word is illegal. -/
def decodeLanes : List Byte → Option (Instr × List Byte)
  | b0 :: b1 :: b2 :: b3 :: rest =>
    match decode (wordOfLanes b0 b1 b2 b3) with
    | .command i => some (i, rest)
    | .illegal _ => none
  | _ => none

/-- The command word whose low `nbits` bits are those of `w`, every bit above them 0. -/
def tableWord (nbits w : Nat) : Word := BitVec.ofNat 32 (w % 2 ^ nbits)

/-- The instruction the decoder reads from the bits of an opcode-table row, laid out in the byte lanes of R54. -/
def decodeTableWord (nbits w : Nat) : Option Instr :=
  (decodeLanes (wordLanes (tableWord nbits w))).map Prod.fst

/-- The mnemonic of a command: its pseudo-instruction name (R77). -/
def mnemonic : Instr → String
  | .setpoly => "SETPOLY"
  | .divide => "DIVIDE"
  | .encode => "ENCODE"
  | .decode => "DECODE"

/-- One hexadecimal digit. -/
def hexDigit (d : BitVec 4) : String :=
  match d.toNat with
  | 0 => "0" | 1 => "1" | 2 => "2" | 3 => "3" | 4 => "4" | 5 => "5" | 6 => "6" | 7 => "7"
  | 8 => "8" | 9 => "9" | 10 => "A" | 11 => "B" | 12 => "C" | 13 => "D" | 14 => "E" | _ => "F"

/-- `n` hexadecimal digits of a word, most significant first. -/
def hexDigits (w : Word) : Nat → String
  | 0 => ""
  | n + 1 => hexDigit (w.extractLsb' (4 * n) 4) ++ hexDigits w n

/-- R77: the mnemonic of a legal word; `ILLEGAL 0xHHHHHHHH` for any other. -/
def disassemble (w : Word) : String :=
  match decode w with
  | .command i => mnemonic i
  | .illegal _ => "ILLEGAL 0x" ++ hexDigits w 8

end Sys2Proof
end

