-- ==== Sys2Proof/Config.lean ====
section
/-! DEFINITION. The implementation parameters (spec/00_scope.md R6 to R9): what one implementation fixes. State carries a
value of `Params`, so that a statement about every state is a statement about every implementation (log 1). -/

namespace Sys2Proof

/-- R8: the placeholder quotient when the raw remainder is empty. -/
inductive QuotZeroRem where
  /-- The whole dividend: the literal reading of §4.1, the default. -/
  | whole
  /-- The empty sequence. -/
  | empty
deriving DecidableEq, Repr

/-- The named parameters the spec says a model takes as an argument. -/
structure Params where
  /-- W_MAX (R6): the largest dividend, codeword, and ENCODE result. -/
  wMax : Nat
  /-- POLY_MAX (R7): the largest generator polynomial SETPOLY accepts. -/
  polyMax : Nat
  /-- QUOT_ZERO_REM (R8). -/
  quotZeroRem : QuotZeroRem
  /-- BASE (R9): the platform address of the window. -/
  base : Nat
deriving DecidableEq, Repr

/-- The defaults of R6, R7 and R8. R9 gives BASE no default: 0 is a DESIGN CHOICE (log 2). -/
def Params.default : Params :=
  { wMax := 128, polyMax := 32, quotZeroRem := .whole, base := 0 }

/-- The bounds R6, R7 and R9 put on the parameters: `2 <= POLY_MAX <= 32`, `POLY_MAX <= W_MAX <= 128`, and BASE aligned to
128 bytes. -/
def Params.wf (p : Params) : Bool :=
  decide (2 ≤ p.polyMax) && decide (p.polyMax ≤ 32) && decide (p.polyMax ≤ p.wMax) && decide (p.wMax ≤ 128)
    && decide (p.base % 128 = 0)

end Sys2Proof
end

