-- ==== Sys2Proof/Machine/State.lean ====
section
/-! DEFINITION. The state of the machine: the block's registers and pending slot (spec/10_state.md R20, R21, R39), the host agent
that drives it (spec/00_scope.md R10, spec/30_encoding.md R75), the parameters, and the turns still to come. -/

namespace Sys2Proof.Machine

/-- The registers of the window, by the names of 10_state.md R21. -/
inductive Reg where
  | cap | cmd | status | polyLen | polyIn | polyHeldLen | polyHeld | dinLen
  | din0 | din1 | din2 | din3
  | doutLen | dout0 | dout1 | dout2 | dout3
  | remRawLen | rem
  | quotLen | quot0 | quot1 | quot2 | quot3
deriving DecidableEq, Repr

/-- The four words of a sequence register (20_memory.md R55): `w0` at the lowest offset, the least significant. -/
structure Quad where
  w0 : Word
  w1 : Word
  w2 : Word
  w3 : Word
deriving DecidableEq, Repr

/-- The errors a command can complete with (60_exceptions.md R201). They are no faults: a Complete step with one of them writes
its code to STATUS.ERR_CODE (R200). -/
inductive CommandError where
  /-- A stray bit (R202). -/
  | invalidBit
  /-- No valid generator polynomial (R203). -/
  | divisorDegenerate
  /-- A length beyond the capacity (R204). -/
  | lengthOverflow
  /-- An illegal command word (R205). -/
  | illegalCommand
deriving DecidableEq, Repr

/-- A pending command: the copy of the input registers taken at issue (10_state.md R39). -/
structure Snapshot where
  word : Word
  polyLen : Word
  polyIn : Word
  heldLen : Word
  held : Word
  dinLen : Word
  din : Wide
deriving DecidableEq, Repr

/-- The register writes of a command that succeeds (10_state.md R39, R43): for each group of registers, what is written
to it, or none where the command does not list it. STATUS.ERR_CODE, which every Complete step writes, is not among them. -/
structure Writes where
  /-- POLY_HELD_LEN and POLY_HELD. -/
  polyHeld : Option (Word × Word) := none
  /-- DOUT_LEN and DOUTV. -/
  dout : Option (Word × Wide) := none
  /-- REM_RAW_LEN and REM. -/
  rem : Option (Word × Word) := none
  /-- QUOT_LEN and QUOTV. -/
  quot : Option (Word × Wide) := none
  /-- STATUS.ERR_DETECTED. -/
  errDetected : Option Bool := none
deriving DecidableEq, Repr

/-- One operation of a host program (30_encoding.md R75). Labels are numbers (log 13). -/
inductive HostOp where
  /-- `WR off, imm32`. -/
  | wr (off : Nat) (v : Word)
  /-- `RD off -> tN`. -/
  | rd (off : Nat) (t : Nat)
  /-- `BNZ tN, mask, label`. -/
  | bnz (t : Nat) (mask : Word) (label : Nat)
  /-- `XORI tN, imm32`. -/
  | xori (t : Nat) (v : Word)
  /-- `WRT off, tN`. -/
  | wrt (off : Nat) (t : Nat)
  /-- `; text`. -/
  | comment
  /-- A write of `size` bytes at a platform address: the accesses of 20_memory.md R50 and R51 the notation has no line for. -/
  | writeAt (addr size : Nat) (v : Word)
  /-- A read of `size` bytes at a platform address into `tN` (R50, R51). -/
  | readAt (addr size : Nat) (t : Nat)
deriving DecidableEq, Repr

/-- A line of a host program, optionally preceded by a label (R75). -/
structure HostLine where
  label : Option Nat := none
  op : HostOp
deriving DecidableEq, Repr

/-- The host agent (00_scope.md R10): its program, the index of the line it performs next, and its temporaries `tN`
(R75), a list by rising number that holds no zero; a temporary it does not list reads 0 (log 5). -/
structure HostAgent where
  program : List HostLine
  pc : Nat
  temps : List (Nat × Word)
deriving DecidableEq, Repr

/-- Which agent moves: a host line, the engine's Complete, or the reset input (R10; 70_reset_and_hazards.md R250). -/
inductive Turn where
  | host
  | engine
  | reset
deriving DecidableEq, Repr

/-- The machine's state. The block's own state is the storage registers of 10_state.md R21 and the pending slot of R39, and
nothing else (R20). CAP and CMD have no storage (R22, R23); BUSY and POLY_VALID are views (R25, R26). -/
structure State where
  /-- The parameters, constant for a block (00_scope.md R6 to R9; log 1). -/
  params : Params
  /-- POLY_LEN (R31). -/
  polyLen : Word
  /-- POLY_IN (R32). -/
  polyIn : Word
  /-- POLY_HELD_LEN (R33). -/
  polyHeldLen : Word
  /-- POLY_HELD (R33). -/
  polyHeld : Word
  /-- DIN_LEN (R34). -/
  dinLen : Word
  /-- DIN0 to DIN3 (R34). -/
  din : Quad
  /-- DOUT_LEN (R35). -/
  doutLen : Word
  /-- DOUT0 to DOUT3 (R35). -/
  dout : Quad
  /-- REM_RAW_LEN (R36). -/
  remRawLen : Word
  /-- REM (R36). -/
  rem : Word
  /-- QUOT_LEN (R37). -/
  quotLen : Word
  /-- QUOT0 to QUOT3 (R37). -/
  quot : Quad
  /-- STATUS.ERR_DETECTED (R27). -/
  errDetected : Bool
  /-- STATUS.CMD_OVR (R28). -/
  cmdOvr : Bool
  /-- STATUS.ERR_CODE (R29). -/
  errCode : BitVec 4
  /-- PENDING (R39). -/
  pending : Option Snapshot
  /-- The host agent (00_scope.md R10). -/
  host : HostAgent
  /-- The turns still to come, first first: the model's own field for the order that R10 and R257 leave open (log 3). -/
  schedule : List Turn
deriving DecidableEq, Repr

/-- Why an access is an access error (20_memory.md R51 to R53). The spec names one error, BusError; the cause says which rule
(log 7). -/
inductive BusErrorCause where
  /-- The access is not 32 bits wide (R51). -/
  | size
  /-- The offset is no multiple of 4 (R51). -/
  | misaligned
  /-- The offset is reserved (R52). -/
  | reserved
  /-- A write to a read-only register (R53). -/
  | readOnly
  /-- The address is outside the 128-byte window (R50; log 8). -/
  | outsideWindow
deriving DecidableEq, Repr

/-- The faults. -/
inductive Fault where
  /-- Raised by the host's access (60_exceptions.md R211): "A model raises `BusError` as a fault of the host agent." Safe: the
  hardware goes on with unchanged state, the model stops (log 7). -/
  | busError (cause : BusErrorCause)
deriving DecidableEq, Repr

/-- The refusals. -/
inductive Refusal where
  /-- Raised by an arm of `exec` that has no meaning yet. No arm does. Safe. -/
  | notModelled (mnemonic : String)
  /-- Raised by a host line BNZ whose label no line of the program carries: no host program of 30_encoding.md R75. Safe
  (log 13). -/
  | undefinedLabel (label : Nat)
deriving DecidableEq, Repr

/-- Four zero words. -/
def Quad.zero : Quad := { w0 := 0#32, w1 := 0#32, w2 := 0#32, w3 := 0#32 }

/-- A host with no program (log 5). -/
def HostAgent.idle : HostAgent := { program := [], pc := 0, temps := [] }

/-- A block with the given parameters right after reset (R21, 70_reset_and_hazards.md R250), and a host that does nothing. -/
def State.resetWith (p : Params) : State :=
  { params := p
    polyLen := 0#32, polyIn := 0#32, polyHeldLen := 0#32, polyHeld := 0#32
    dinLen := 0#32, din := Quad.zero
    doutLen := 0#32, dout := Quad.zero
    remRawLen := 0#32, rem := 0#32
    quotLen := 0#32, quot := Quad.zero
    errDetected := false, cmdOvr := false, errCode := 0#4
    pending := none
    host := HostAgent.idle
    schedule := [] }

/-- The machine right after reset, the parameters at their defaults (00_scope.md R6 to R8; BASE by log 2). -/
def State.reset : State := State.resetWith Params.default

end Sys2Proof.Machine
end

