-- ==== Sys2Proof/Machine/Flags.lean ====
section
/-! DEFINITION. The STATUS and CAP words (spec/10_state.md R22, R24 to R29), the error codes (spec/60_exceptions.md R201) and the
DECODE verdict (spec/42_codec.md R156). -/

namespace Sys2Proof.Machine

/-- The code of an error (R201). Code 0 is OK. -/
def errorCode : CommandError → BitVec 4
  | .invalidBit => 1#4
  | .divisorDegenerate => 2#4
  | .lengthOverflow => 3#4
  | .illegalCommand => 4#4

/-- STATUS.BUSY: 1 exactly when a command is pending (R25). -/
def State.busy (s : State) : Bool := s.pending.isSome

/-- STATUS.POLY_VALID: 1 exactly when POLY_HELD_LEN is not 0 (R26). -/
def State.polyValid (s : State) : Bool := decide (s.polyHeldLen ≠ 0#32)

/-- The STATUS word (R24): BUSY bit 0, POLY_VALID bit 1, ERR_DETECTED bit 2, CMD_OVR bit 3, ERR_CODE bits 7:4, the rest 0. -/
def State.statusWord (s : State) : Word :=
  0#24 ++ s.errCode ++ BitVec.ofBool s.cmdOvr ++ BitVec.ofBool s.errDetected ++ BitVec.ofBool s.polyValid
    ++ BitVec.ofBool s.busy

/-- The CAP word (R21, R22): `zext_32(POLY_MAX << 8 or W_MAX)`. -/
def capWord (p : Params) : Word := BitVec.ofNat 32 (p.polyMax <<< 8 ||| p.wMax)

/-- The verdict: true if any bit of the remainder is 1 (42_codec.md R156). -/
def verdict (r : BitSeq) : Bool := r.any id

end Sys2Proof.Machine
end

