-- ==== Sys2Proof/Machine/Sequences.lean ====
section
/-! DEFINITION. Bit sequences and their register form (spec/00_scope.md R11, R12). -/

namespace Sys2Proof.Machine

/-- `zeros(n)`: the sequence of `n` zero bits (R11). -/
def zeros (n : Nat) : BitSeq := List.replicate n false

/-- `val(s)`: the sum of `s[i]·2^(L-1-i)` (R12). -/
def val : BitSeq → Nat
  | [] => 0
  | b :: s => b.toNat * 2 ^ s.length + val s

/-- `seq_L(v) = [v[L-1], ..., v[0]]` (R12). -/
def seqOf : Nat → Nat → BitSeq
  | 0, _ => []
  | L + 1, v => v.testBit L :: seqOf L v

/-- A 1 at or above bit `L` of a register of `n` bits: `L < n and v[n-1:L] != 0` (60_exceptions.md R202). For `L = 0` that is
any 1 in the register. -/
def strayBit {n : Nat} (v : BitVec n) (L : Nat) : Bool :=
  decide (L < n) && decide (v >>> L ≠ 0#n)

end Sys2Proof.Machine
end

