-- ==== Sys2Proof/Machine/Operands.lean ====
section
/-! DEFINITION. The operands of the commands: the 128-bit values of the four-word registers (spec/20_memory.md R55), the snapshot
taken at issue (spec/10_state.md R39), the sequence views (R38), and `SeqOperands` (spec/41_divider.md R131). -/

namespace Sys2Proof.Machine

/-- The 128-bit value of four words: `w3 ++ w2 ++ w1 ++ w0` (R34, R35, R37; R55). -/
def quadValue (q : Quad) : Wide := q.w3 ++ q.w2 ++ q.w1 ++ q.w0

/-- The four words of a 128-bit value: the word at `base + 4j` holds bits `[32j+31:32j]` (R55). -/
def quadOf (v : Wide) : Quad :=
  { w0 := v.extractLsb' 0 32, w1 := v.extractLsb' 32 32, w2 := v.extractLsb' 64 32, w3 := v.extractLsb' 96 32 }

/-- `snapshot(v)`: every field of R39, copied at the CMD write of `v` (R40). -/
def State.snapshot (s : State) (v : Word) : Snapshot :=
  { word := v
    polyLen := s.polyLen, polyIn := s.polyIn
    heldLen := s.polyHeldLen, held := s.polyHeld
    dinLen := s.dinLen, din := quadValue s.din }

/-- `poly_in_seq` (R38). -/
def Snapshot.polyInSeq (snap : Snapshot) : BitSeq := seqOf snap.polyLen.toNat snap.polyIn.toNat

/-- `held_seq` (R38): empty when no polynomial is held. -/
def Snapshot.heldSeq (snap : Snapshot) : BitSeq := seqOf snap.heldLen.toNat snap.held.toNat

/-- `din_seq` (R38). -/
def Snapshot.dinSeq (snap : Snapshot) : BitSeq := seqOf snap.dinLen.toNat snap.din.toNat

/-- The operands DIVIDE, ENCODE and DECODE share, `(d, p)`, or the first error in the order of 60_exceptions.md R207: the
length over W_MAX, a stray bit, no polynomial held. Lengths are unsigned and never truncated (30_encoding.md R74). -/
def seqOperands (p : Params) (snap : Snapshot) : Except CommandError (BitSeq × BitSeq) :=
  if snap.dinLen.toNat > p.wMax then .error .lengthOverflow
  else if strayBit snap.din snap.dinLen.toNat then .error .invalidBit
  else if snap.heldLen = 0#32 then .error .divisorDegenerate
  else .ok (snap.dinSeq, snap.heldSeq)

/-- `zext_32` of a length or a value. -/
def word32 (n : Nat) : Word := BitVec.ofNat 32 n

/-- `zext_128` of a value. -/
def word128 (n : Nat) : Wide := BitVec.ofNat 128 n

end Sys2Proof.Machine
end

