-- ==== Sys2Proof/Machine/Ops.lean ====
section
/-! DEFINITION. The shared operations: the register window (spec/20_memory.md R50 to R58), the issue of a command
(spec/10_state.md R40), the Complete step with and without an error (R39, spec/60_exceptions.md R200), reset
(spec/70_reset_and_hazards.md R250), the host's temporaries, and turns. -/

namespace Sys2Proof.Machine

/-! ### The register window -/

/-- The window offset of each register (10_state.md R21). -/
def Reg.offset : Reg → Nat
  | .cap => 0x00 | .cmd => 0x04 | .status => 0x08
  | .polyLen => 0x10 | .polyIn => 0x14 | .polyHeldLen => 0x18 | .polyHeld => 0x1C
  | .dinLen => 0x20
  | .din0 => 0x30 | .din1 => 0x34 | .din2 => 0x38 | .din3 => 0x3C
  | .doutLen => 0x40
  | .dout0 => 0x50 | .dout1 => 0x54 | .dout2 => 0x58 | .dout3 => 0x5C
  | .remRawLen => 0x60 | .rem => 0x64
  | .quotLen => 0x68
  | .quot0 => 0x70 | .quot1 => 0x74 | .quot2 => 0x78 | .quot3 => 0x7C

/-- Every register of R21. -/
def allRegs : List Reg :=
  [.cap, .cmd, .status, .polyLen, .polyIn, .polyHeldLen, .polyHeld, .dinLen, .din0, .din1, .din2, .din3,
   .doutLen, .dout0, .dout1, .dout2, .dout3, .remRawLen, .rem, .quotLen, .quot0, .quot1, .quot2, .quot3]

/-- The register at a window offset; none at a reserved offset (20_memory.md R52) and at an offset that is no multiple of 4. -/
def regAt (off : Nat) : Option Reg := allRegs.find? fun r => r.offset == off

/-- The number of bytes of the window (R50). -/
def windowBytes : Nat := 128

/-- The window offset that an access to a platform address reaches (R50); none outside the window. -/
def windowOffset (p : Params) (addr : Nat) : Option Nat :=
  if p.base ≤ addr ∧ addr < p.base + windowBytes then some (addr - p.base) else none

/-- `R[NAME]` (00_scope.md, pseudocode primitives). CMD reads 0 (10_state.md R23). No read changes anything (20_memory.md R58). -/
def State.readReg (s : State) : Reg → Word
  | .cap => capWord s.params
  | .cmd => 0#32
  | .status => s.statusWord
  | .polyLen => s.polyLen
  | .polyIn => s.polyIn
  | .polyHeldLen => s.polyHeldLen
  | .polyHeld => s.polyHeld
  | .dinLen => s.dinLen
  | .din0 => s.din.w0
  | .din1 => s.din.w1
  | .din2 => s.din.w2
  | .din3 => s.din.w3
  | .doutLen => s.doutLen
  | .dout0 => s.dout.w0
  | .dout1 => s.dout.w1
  | .dout2 => s.dout.w2
  | .dout3 => s.dout.w3
  | .remRawLen => s.remRawLen
  | .rem => s.rem
  | .quotLen => s.quotLen
  | .quot0 => s.quot.w0
  | .quot1 => s.quot.w1
  | .quot2 => s.quot.w2
  | .quot3 => s.quot.w3

/-- The issue of a command: a write of `v` to CMD (10_state.md R40). While a command is pending the write is dropped and CMD_OVR
set; otherwise every field of the snapshot is copied. Nothing about `v` or the inputs is checked. -/
def State.issue (s : State) (v : Word) : State :=
  match s.pending with
  | some _ => { s with cmdOvr := true }
  | none => { s with pending := some (s.snapshot v) }

/-- A write of `v` to STATUS: `if v[3] = 1 then CMD_OVR <- 0`, and nothing else (10_state.md R30). -/
def State.writeStatus (s : State) (v : Word) : State :=
  { s with cmdOvr := s.cmdOvr && !v.getLsbD 3 }

/-- A host write to a register; none for a read-only register (20_memory.md R53). A write to an RW register stores every bit,
BUSY or not (R53, R58). -/
def State.writeReg (s : State) (r : Reg) (v : Word) : Option State :=
  match r with
  | .cmd => some (s.issue v)
  | .status => some (s.writeStatus v)
  | .polyLen => some { s with polyLen := v }
  | .polyIn => some { s with polyIn := v }
  | .dinLen => some { s with dinLen := v }
  | .din0 => some { s with din := { s.din with w0 := v } }
  | .din1 => some { s with din := { s.din with w1 := v } }
  | .din2 => some { s with din := { s.din with w2 := v } }
  | .din3 => some { s with din := { s.din with w3 := v } }
  | .cap | .polyHeldLen | .polyHeld | .doutLen | .dout0 | .dout1 | .dout2 | .dout3
  | .remRawLen | .rem | .quotLen | .quot0 | .quot1 | .quot2 | .quot3 => none

/-- The register that an access of `size` bytes at window offset `off` reaches, or the cause of its access error (20_memory.md
R51, R52). The order of the checks is the model's (log 7). -/
def accessTarget (off size : Nat) : Except BusErrorCause Reg :=
  if size ≠ 4 then .error .size
  else if off % 4 ≠ 0 then .error .misaligned
  else match regAt off with
    | some r => .ok r
    | none => if off < windowBytes then .error .reserved else .error .outsideWindow

/-- `MemRead(off, size)` (R51). -/
def State.memRead (s : State) (off size : Nat) : Except BusErrorCause Word :=
  match accessTarget off size with
  | .ok r => .ok (s.readReg r)
  | .error c => .error c

/-- `MemWrite(off, size, v)` (R51). -/
def State.memWrite (s : State) (off size : Nat) (v : Word) : Except BusErrorCause State :=
  match accessTarget off size with
  | .error c => .error c
  | .ok r =>
    match s.writeReg r v with
    | some t => .ok t
    | none => .error .readOnly

/-- A read of `size` bytes at a platform address (R50). -/
def State.platformRead (s : State) (addr size : Nat) : Except BusErrorCause Word :=
  match windowOffset s.params addr with
  | some off => s.memRead off size
  | none => .error .outsideWindow

/-- A write of `size` bytes at a platform address (R50). -/
def State.platformWrite (s : State) (addr size : Nat) (v : Word) : Except BusErrorCause State :=
  match windowOffset s.params addr with
  | some off => s.memWrite off size v
  | none => .error .outsideWindow

/-! ### Complete -/

/-- What a Complete step does on an error (60_exceptions.md R200): ERR_CODE takes the code, PENDING is cleared, and nothing else
is written. There is no trap, no saved state, and no return (R209). -/
def State.failCommand (s : State) (e : CommandError) : State :=
  { s with errCode := errorCode e, pending := none }

/-- What a Complete step does on success (10_state.md R39): the command's register writes, ERR_CODE 0, PENDING cleared. -/
def State.finishCommand (s : State) (w : Writes) : State :=
  { s with
    polyHeldLen := (w.polyHeld.map Prod.fst).getD s.polyHeldLen
    polyHeld := (w.polyHeld.map Prod.snd).getD s.polyHeld
    doutLen := (w.dout.map Prod.fst).getD s.doutLen
    dout := (w.dout.map fun x => quadOf x.2).getD s.dout
    remRawLen := (w.rem.map Prod.fst).getD s.remRawLen
    rem := (w.rem.map Prod.snd).getD s.rem
    quotLen := (w.quot.map Prod.fst).getD s.quotLen
    quot := (w.quot.map fun x => quadOf x.2).getD s.quot
    errDetected := w.errDetected.getD s.errDetected
    errCode := 0#4
    pending := none }

/-- The Complete step (R39) for a command whose `Exec` is `run`, a function of the parameters and the snapshot alone (R42). It is
enabled exactly when a command is pending; where none is, nothing happens (log 10). -/
def State.complete (s : State) (run : Params → Snapshot → Except CommandError Writes) : State :=
  match s.pending with
  | none => s
  | some snap =>
    match run s.params snap with
    | .error e => s.failCommand e
    | .ok w => s.finishCommand w

/-! ### Reset -/

/-- The reset input (70_reset_and_hazards.md R250): every register takes its reset value, CAP keeps its constant, a pending command
is abandoned. The host agent and the turns to come are outside the block (log 6). -/
def State.resetBlock (s : State) : State :=
  { State.resetWith s.params with host := s.host, schedule := s.schedule }

/-! ### The host's temporaries -/

/-- The value of `tN`: the listed one, else 0 (log 5). -/
def tempRead : List (Nat × Word) → Nat → Word
  | [], _ => 0#32
  | (k, v) :: ts, n => if k = n then v else tempRead ts n

/-- `tN <- v`, keeping the list sorted by number and free of zeros. -/
def tempWrite : List (Nat × Word) → Nat → Word → List (Nat × Word)
  | [], n, v => if v = 0#32 then [] else [(n, v)]
  | (k, w) :: ts, n, v =>
    if k < n then (k, w) :: tempWrite ts n v
    else if k = n then (if v = 0#32 then ts else (n, v) :: ts)
    else (if v = 0#32 then (k, w) :: ts else (n, v) :: (k, w) :: ts)

/-- The canonical form of the temporaries: numbers strictly rising, all above `lo` if one is given, and no value 0. -/
def tempsFrom : Option Nat → List (Nat × Word) → Bool
  | _, [] => true
  | lo, (k, v) :: ts => lo.all (fun l => decide (l < k)) && decide (v ≠ 0#32) && tempsFrom (some k) ts

/-- The canonical form of the temporaries. -/
def tempsWf (ts : List (Nat × Word)) : Bool := tempsFrom none ts

/-- `tN`. -/
def State.temp (s : State) (n : Nat) : Word := tempRead s.host.temps n

/-- `tN <- v`. -/
def State.setTemp (s : State) (n : Nat) (v : Word) : State :=
  { s with host := { s.host with temps := tempWrite s.host.temps n v } }

/-- The host goes on at line `n` of its program. -/
def State.goto (s : State) (n : Nat) : State := { s with host := { s.host with pc := n } }

/-- The host goes on at its next line. -/
def State.nextLine (s : State) : State := s.goto (s.host.pc + 1)

/-! ### Turns -/

/-- Which agent moves next: the first turn listed; with none listed, the engine while a command is pending and the host otherwise
(log 3). -/
def State.nextTurn (s : State) : Turn :=
  match s.schedule with
  | t :: _ => t
  | [] => if s.busy then .engine else .host

/-- The state whose first listed turn is being taken. -/
def State.popTurn (s : State) : State := { s with schedule := s.schedule.tail }

end Sys2Proof.Machine
end

