-- ==== Sys2Proof/Machine/Divider.lean ====
section
/-! DEFINITION. The GF(2) divider and DIVIDE (spec/41_divider.md R120 to R132). -/

namespace Sys2Proof.Machine

/-- XOR step: the whole divisor into the leading elements of `w`, whatever `w[0]` is (R121). -/
def xorStep : BitSeq → BitSeq → BitSeq
  | [], w => w
  | _ :: _, [] => []
  | b :: p, x :: w => (x ^^ b) :: xorStep p w

/-- Strip: every leading 0 element is removed (R122). -/
def strip (w : BitSeq) : BitSeq := w.dropWhile fun b => !b

/-- The division loop (R120, R123), cut off after `fuel` passes (log 11). -/
def divLoop : Nat → BitSeq → BitSeq → BitSeq
  | 0, _, w => w
  | fuel + 1, p, w => if p.length ≤ w.length then divLoop fuel p (strip (xorStep p w)) else w

/-- The number of passes the loop makes within `fuel` (R130). No register shows it (10_state.md R41). -/
def divPasses : Nat → BitSeq → BitSeq → Nat
  | 0, _, _ => 0
  | fuel + 1, p, w => if p.length ≤ w.length then divPasses fuel p (strip (xorStep p w)) + 1 else 0

/-- A number of passes the loop never exceeds for a divisor that begins with 1: R130 bounds them by `L - m + 2`. DEDUCED
(log 11). -/
def passBound (d : BitSeq) : Nat := d.length + 1

/-- The raw remainder: the working sequence at loop exit (R124). -/
def rawRemainder (d p : BitSeq) : BitSeq := divLoop (passBound d) p d

/-- The placeholder quotient: the first `L - k` elements of the dividend; for `k = 0` the parameter decides (R125). -/
def placeholderQuotient (z : QuotZeroRem) (d : BitSeq) (k : Nat) : BitSeq :=
  if k = 0 ∧ z = .empty then [] else d.take (d.length - k)

/-- `GF2Div(d, p) = (q, r)` (R120). It raises nothing and checks nothing (R132). -/
def gf2Div (z : QuotZeroRem) (d p : BitSeq) : BitSeq × BitSeq :=
  (placeholderQuotient z d (rawRemainder d p).length, rawRemainder d p)

/-- The fixed-width remainder `zeros(c - k) ++ r` (R126). -/
def fixedWidth (c : Nat) (r : BitSeq) : BitSeq := zeros (c - r.length) ++ r

/-- The writes of a raw remainder: REM_RAW_LEN <- len(r) and REM <- zext_32(val(r)) (10_state.md R36). -/
def remWrite (r : BitSeq) : Word × Word := (word32 r.length, word32 (val r))

/-- `Divide(snap)` (R131). -/
def divideCommand (p : Params) (snap : Snapshot) : Except CommandError Writes :=
  match seqOperands p snap with
  | .error e => .error e
  | .ok (d, g) =>
    let qr := gf2Div p.quotZeroRem d g
    .ok { rem := some (remWrite qr.2), quot := some (word32 qr.1.length, word128 (val qr.1)) }

/-- DIVIDE (R131). -/
def execDivide (s : State) : Host.Outcome State Fault Refusal := .next (s.complete divideCommand)

end Sys2Proof.Machine
end

