-- ==== Sys2Proof/Machine/Codec.lean ====
section
/-! DEFINITION. The CRC codec: ENCODE and DECODE (spec/42_codec.md R150 to R156). -/

namespace Sys2Proof.Machine

/-- `Encode(snap)` (R150): the data padded with `c = m - 1` zeros is divided (R151), and the fixed-width remainder is appended to
the data (R152). The codeword's length is checked last (60_exceptions.md R207); lengths are unbounded integers (R204). -/
def encodeCommand (p : Params) (snap : Snapshot) : Except CommandError Writes :=
  match seqOperands p snap with
  | .error e => .error e
  | .ok (d, g) =>
    let c := snap.heldLen.toNat - 1
    if d.length + c > p.wMax then .error .lengthOverflow
    else
      let r := (gf2Div p.quotZeroRem (d ++ zeros c) g).2
      .ok { dout := some (word32 (d.length + c), word128 (val (d ++ fixedWidth c r))), rem := some (remWrite r) }

/-- ENCODE (R150). -/
def execEncode (s : State) : Host.Outcome State Fault Refusal := .next (s.complete encodeCommand)

/-- `Decode(snap)` (R155): the received sequence is divided as it is; the verdict is that of the raw remainder (R156). -/
def decodeCommand (p : Params) (snap : Snapshot) : Except CommandError Writes :=
  match seqOperands p snap with
  | .error e => .error e
  | .ok (d, g) =>
    let r := (gf2Div p.quotZeroRem d g).2
    .ok { errDetected := some (verdict r), rem := some (remWrite r) }

/-- DECODE (R155). -/
def execDecode (s : State) : Host.Outcome State Fault Refusal := .next (s.complete decodeCommand)

end Sys2Proof.Machine
end

