-- ==== Sys2Proof/Machine/Polynomial.lean ====
section
/-! DEFINITION. SETPOLY and the valid generator polynomial (spec/40_polynomial.md R100 to R104). -/

namespace Sys2Proof.Machine

/-- `SetPoly(snap)` (R100): the checks in the order of 60_exceptions.md R206, then POLY_HELD_LEN <- m and POLY_HELD <- u. -/
def setPoly (p : Params) (snap : Snapshot) : Except CommandError Writes :=
  let m := snap.polyLen.toNat
  let u := snap.polyIn
  if m > p.polyMax then .error .lengthOverflow
  else if strayBit u m then .error .invalidBit
  else if m < 2 || !u.getLsbD (m - 1) then .error .divisorDegenerate
  else .ok { polyHeld := some (snap.polyLen, u) }

/-- SETPOLY (R100): a Complete step; a failing one leaves the held polynomial as it was (R104). -/
def execSetpoly (s : State) : Host.Outcome State Fault Refusal := .next (s.complete setPoly)

end Sys2Proof.Machine
end

