-- ==== Sys2Proof/Machine/HostAgent.lean ====
section
/-! DEFINITION. The host agent (spec/00_scope.md R10): the lines of a host program (spec/30_encoding.md R75), the expansions of the
pseudo-instructions (R76), and one host turn. Only WR, WRT and RD reach the block (R75). -/

namespace Sys2Proof.Machine

/-- The index of the first line that carries a label. -/
def findLabel : List HostLine → Nat → Option Nat
  | [], _ => none
  | l :: ls, n => if l.label = some n then some 0 else (findLabel ls n).map (· + 1)

/-- The end of a host line that writes the window: the next line in the new state, or a BusError (60_exceptions.md R211). -/
def afterWrite (r : Except BusErrorCause State) : Host.Outcome State Fault Refusal :=
  match r with
  | .ok t => .next t.nextLine
  | .error c => .fault (.busError c)

/-- The end of a host line that reads the window into `tN`. -/
def State.afterRead (s : State) (t : Nat) (r : Except BusErrorCause Word) : Host.Outcome State Fault Refusal :=
  match r with
  | .ok v => .next (s.setTemp t v).nextLine
  | .error c => .fault (.busError c)

/-- One host line (R75). `off` is a window offset, reached at the platform address `BASE + off` (20_memory.md R50). -/
def State.hostOp (s : State) (op : HostOp) : Host.Outcome State Fault Refusal :=
  match op with
  | .wr off v => afterWrite (s.platformWrite (s.params.base + off) 4 v)
  | .rd off t => s.afterRead t (s.platformRead (s.params.base + off) 4)
  | .bnz t mask label =>
    if s.temp t &&& mask = 0#32 then .next s.nextLine
    else match findLabel s.host.program label with
      | some n => .next (s.goto n)
      | none => .refused (.undefinedLabel label)
  | .xori t v => .next (s.setTemp t (s.temp t ^^^ v)).nextLine
  | .wrt off t => afterWrite (s.platformWrite (s.params.base + off) 4 (s.temp t))
  | .comment => .next s.nextLine
  | .writeAt addr size v => afterWrite (s.platformWrite addr size v)
  | .readAt addr size t => s.afterRead t (s.platformRead addr size)

/-- One host turn: the line the host is at; a host at the end of its program makes no access (log 4). -/
def State.hostTurn (s : State) : Host.Outcome State Fault Refusal :=
  match s.host.program[s.host.pc]? with
  | some l => s.hostOp l.op
  | none => .next s

/-- `WR NAME, imm32`: the register's name stands for its offset (R75). -/
def lineWR (r : Reg) (v : Word) : HostLine := { op := .wr r.offset v }

/-- `RD NAME -> tN`. -/
def lineRD (r : Reg) (t : Nat) : HostLine := { op := .rd r.offset t }

/-- `WRT NAME, tN`. -/
def lineWRT (r : Reg) (t : Nat) : HostLine := { op := .wrt r.offset t }

/-- `SETPOLY`, `DIVIDE`, `ENCODE`, `DECODE` as host lines: a write of the command word to CMD (R76). -/
def lineCommand (i : Instr) : HostLine := lineWR .cmd (encode i)

/-- `WAIT` with its fresh label (R76): `Lw: RD STATUS -> t0` then `BNZ t0, 0x1, Lw`. -/
def linesWAIT (fresh : Nat) : List HostLine :=
  [{ label := some fresh, op := .rd Reg.status.offset 0 }, { op := .bnz 0 0x1#32 fresh }]

/-- `LDPOLY "b..."` (R76): POLY_LEN and POLY_IN. For a string of more than 32 digits `val(s)` is no imm32 of R75 and R76 does not
say what is then written: the low 32 bits are, and of a length from 2^32 up the low 32 bits too (DESIGN CHOICE, log 14). -/
def linesLDPOLY (b : BitSeq) : List HostLine :=
  [lineWR .polyLen (word32 b.length), lineWR .polyIn (word32 (val b))]

/-- `LDDIN "b..."` (R76): DIN_LEN and all four DIN words, the slices of `val(s)` that R76 names. Of a length from 2^32 up the low 32
bits are written (DESIGN CHOICE, log 14). -/
def linesLDDIN (b : BitSeq) : List HostLine :=
  [lineWR .dinLen (word32 b.length),
   lineWR .din0 (quadOf (word128 (val b))).w0, lineWR .din1 (quadOf (word128 (val b))).w1,
   lineWR .din2 (quadOf (word128 (val b))).w2, lineWR .din3 (quadOf (word128 (val b))).w3]

/-- `CLROVR` (R76). -/
def lineCLROVR : HostLine := lineWR .status 0x8#32

end Sys2Proof.Machine
end

