-- ==== Sys2Proof/Machine/Step.lean ====
section
/-! DEFINITION. One step of the machine: one host line, one Complete step, or a reset (spec/00_scope.md R10, spec/20_memory.md R59,
spec/70_reset_and_hazards.md R250). -/

namespace Sys2Proof.Machine

/-- The engine's turn. With a command pending it is the Complete step: the pending word is decoded (30_encoding.md R70, R71); a
command runs, an illegal word completes with IllegalCommand (R72). With none pending Complete is not enabled (10_state.md R39)
and nothing happens (log 4). -/
def engineTurn (s : State) : Host.Outcome State Fault Refusal :=
  match s.pending with
  | none => .next s
  | some snap =>
    match decode snap.word with
    | .command i => exec i s
    | .illegal _ => .next (s.failCommand .illegalCommand)

/-- One step: the next turn is taken off the schedule, and its agent moves. -/
def step (s : State) : Host.Outcome State Fault Refusal :=
  match s.nextTurn with
  | .engine => engineTurn s.popTurn
  | .host => s.popTurn.hostTurn
  | .reset => .next s.popTurn.resetBlock

/-- The block fetches no instruction from a memory (10_state.md R20): it decodes the word of the pending command. The state in
which the command word `w` has just been issued, with the snapshot of the registers as they stand (R40), and the engine moves
next (log 9). -/
def State.withFetchWord (s : State) (nbits w : Nat) : State :=
  { s with pending := some (s.snapshot (tableWord nbits w)), schedule := .engine :: s.schedule }

end Sys2Proof.Machine
end

