-- ==== Sys2Proof/WellFormed.lean ====
section
/-! DEFINITION. What a well-formed term is: an instruction, a command word, a host program (spec/30_encoding.md R70 to R76). The
parameters' own check is `Params.wf` in Config. -/

namespace Sys2Proof

/-- Every instruction is well-formed: a command word has no immediate, register-number or mode field (R73), so there is no operand
to be out of range. What can be ill-formed is a word (`legalWord`), a host program (`programWf`) and the parameters. -/
def Instr.wf : Instr → Bool
  | .setpoly => true
  | .divide => true
  | .encode => true
  | .decode => true

/-- A word is legal unless `word[31:4] != 0`, or `word[3:0]` is 0x0 or any of 0x5 to 0xF (R72). -/
def legalWord (w : Word) : Bool :=
  !(decide (w >>> 4 ≠ 0#32) || decide (w &&& 0xF#32 = 0#32) || decide (5 ≤ (w &&& 0xF#32).toNat))

/-- The labels of a program, in order. -/
def programLabels (ls : List Machine.HostLine) : List Nat := ls.filterMap fun l => l.label

/-- Every BNZ names a label of the program (R75). -/
def branchesWf (all : List Machine.HostLine) : List Machine.HostLine → Bool
  | [] => true
  | l :: ls =>
    (match l.op with
      | .bnz _ _ label => (Machine.findLabel all label).isSome
      | _ => true) && branchesWf all ls

/-- A host program (R75): no label stands twice, and every branch goes to a label of the program. -/
def programWf (ls : List Machine.HostLine) : Bool :=
  decide (programLabels ls).Nodup && branchesWf ls ls

end Sys2Proof
end

