-- ==== Sys2Proof/Safety.lean ====
section
/-! DEFINITION. The terms in which claims about runs are made: the invariant of the block, and a safe run. -/

namespace Sys2Proof.Machine

/-- A register pair holds a valid generator polynomial (spec/10_state.md R44, spec/40_polynomial.md R101): `2 <= m <= POLY_MAX`,
the leading bit `u[m-1]` is 1, and no bit of `u` at or above `m` is 1. -/
def ValidPoly (p : Params) (len u : Word) : Prop :=
  2 ≤ len.toNat ∧ len.toNat ≤ p.polyMax ∧ u.getLsbD (len.toNat - 1) = true ∧ u.toNat < 2 ^ len.toNat

/-- What POLY_HELD_LEN and POLY_HELD hold outside a Complete step (R44): nothing, or a valid polynomial. -/
def HeldOk (p : Params) (len u : Word) : Prop :=
  (len = 0#32 ∧ u = 0#32) ∨ ValidPoly p len u

/-- The snapshot of a pending command, if there is one, was taken of a held polynomial that R44 allows (R39). -/
def PendingOk (s : State) : Prop :=
  ∀ snap, s.pending = some snap → HeldOk s.params snap.heldLen snap.held

/-- The result registers hold sequences: each value fits its length, and each length its bound (R35, R36, R37; R6). -/
def ResultsOk (s : State) : Prop :=
  (s.doutLen.toNat ≤ s.params.wMax ∧ (quadValue s.dout).toNat < 2 ^ s.doutLen.toNat) ∧
  (s.remRawLen.toNat ≤ 31 ∧ s.rem.toNat < 2 ^ s.remRawLen.toNat) ∧
  (s.quotLen.toNat ≤ s.params.wMax ∧ (quadValue s.quot).toNat < 2 ^ s.quotLen.toNat)

/-- The invariant of the machine. It names no value that the model chose: the parameters keep their bounds, the held polynomial and
the one in the snapshot are empty or valid, the results fit, ERR_CODE is one of R201, and the temporaries keep their form. -/
structure Inv (s : State) : Prop where
  params : s.params.wf = true
  held : HeldOk s.params s.polyHeldLen s.polyHeld
  pending : PendingOk s
  results : ResultsOk s
  errCode : s.errCode.toNat ≤ 4
  temps : tempsWf s.host.temps = true

/-- The host's line writes `v` to window offset `off`: `WR`, `WRT`, or a 32-bit write at the platform address (30_encoding.md R75,
20_memory.md R50). -/
def HostWrites (s : State) (off : Nat) (v : Word) : Prop :=
  ∃ l, s.host.program[s.host.pc]? = some l ∧
    (l.op = .wr off v ∨ (∃ n, l.op = .wrt off n ∧ s.temp n = v) ∨ l.op = .writeAt (s.params.base + off) 4 v)

/-- The host is at the first of these lines, and the others follow it in its program (R75). -/
def AtLines (s : State) (ls : List HostLine) : Prop :=
  ∀ i, i < ls.length → s.host.program[s.host.pc + i]? = ls[i]?

/-- The next `n` turns are the host's, as long as no command is issued in them: they are listed, or the list runs out of host turns
and no command is pending (log 3). -/
def HostTurnsNext (n : Nat) (s : State) : Prop :=
  (∃ rest, s.schedule = List.replicate n .host ++ rest) ∨
    (s.pending = none ∧ ∃ k, k ≤ n ∧ s.schedule = List.replicate k .host)

/-- The registers a command writes when it succeeds, beside STATUS (10_state.md R43). -/
def writtenRegs : Instr → List Reg
  | .setpoly => [.polyHeldLen, .polyHeld]
  | .divide => [.rem, .remRawLen, .quot0, .quot1, .quot2, .quot3, .quotLen]
  | .encode => [.dout0, .dout1, .dout2, .dout3, .doutLen, .rem, .remRawLen]
  | .decode => [.rem, .remRawLen]

/-- The registers only the host writes (R43). -/
def inputRegs : List Reg := [.polyLen, .polyIn, .dinLen, .din0, .din1, .din2, .din3]

/-- `Exec(snap)` (10_state.md R39, 30_encoding.md R71): the writes of the command in the snapshot, or its error. -/
def commandResult (p : Params) (snap : Snapshot) : Except CommandError Writes :=
  match decode snap.word with
  | .command .setpoly => setPoly p snap
  | .command .divide => divideCommand p snap
  | .command .encode => encodeCommand p snap
  | .command .decode => decodeCommand p snap
  | .illegal _ => .error .illegalCommand

/-- The ERR_CODE value of a result (60_exceptions.md R201). -/
def resultCode : Except CommandError Writes → BitVec 4
  | .ok _ => 0#4
  | .error e => errorCode e

/-- A run of `n` steps is safe when the host makes no access error and takes no branch to a missing label: it ends in a state. -/
def SafeRun (n : Nat) (s : State) : Prop := ∃ t, Sys2Proof.core.run n s = .next t

end Sys2Proof.Machine
end

