-- ==== Sys2Proof/Certificates/Slice0/Obligations.lean ====
section
/-! DEFINITION. The statements for the provers: what the rules of spec/ say the block does, and the model's own conventions where a
docstring says so. Each is listed in OBLIGATIONS.json. -/

open Sys2Proof Sys2Proof.Machine

namespace Sys2Proof

/-- The polynomial over GF(2) a sequence stands for: the sum of `s[i]·x^(L-1-i)` (00_scope.md R12, 41_divider.md R127). -/
noncomputable def polyOf : BitSeq → Polynomial (ZMod 2)
  | [] => 0
  | b :: s => (if b then Polynomial.X ^ s.length else 0) + polyOf s

/-- A valid generator polynomial, as a sequence (40_polynomial.md R101): at least two elements, the first of them 1. -/
def ValidSeq (p : BitSeq) : Prop := 2 ≤ p.length ∧ p.head? = some true

/-- The reserved offsets of the window (20_memory.md R52). -/
def reservedOffsets : List Nat := [0x0C, 0x24, 0x28, 0x2C, 0x44, 0x48, 0x4C, 0x6C]

/-- The carry-less remainder of `a` by `b` (41_divider.md R127), written apart from the block's own loop: bit by bit from the top,
`b` is exclusive-ored in wherever its leading 1 meets a 1. -/
def clmod (a b : Nat) : Nat :=
  (List.range a.size).reverse.foldl
    (fun acc i => if acc.testBit (i + (b.size - 1)) then acc ^^^ (b <<< i) else acc) a

end Sys2Proof

/-! ### Decoding and dispatch -/

/-- Words written out from the opcode map of 30_encoding.md R71 and from the illegal words of R72. -/
def Obligations.WrittenOutWordsDecode : Prop :=
  decode 0b00000000000000000000000000000001#32 = .command .setpoly ∧
  decode 0b00000000000000000000000000000010#32 = .command .divide ∧
  decode 0b00000000000000000000000000000011#32 = .command .encode ∧
  decode 0b00000000000000000000000000000100#32 = .command .decode ∧
  decode 0b00000000000000000000000000000000#32 = .illegal .unusedOp ∧
  decode 0b00000000000000000000000000000101#32 = .illegal .unusedOp ∧
  decode 0b00000000000000000000000000010001#32 = .illegal .reservedBits ∧
  decode 0b10000000000000000000000000000001#32 = .illegal .reservedBits

/-- Decoding an encoded instruction gives it back, from the word and from the byte lanes with whatever follows them (R70: a decoder
reads exactly one word); and a word decodes to an instruction only if it is that instruction's word. -/
def Obligations.DecodeAndEncodeAgree : Prop :=
  (∀ (i : Instr) (rest : List Byte), i.wf = true →
    decode (encode i) = .command i ∧ decodeLanes (wordLanes (encode i) ++ rest) = some (i, rest)) ∧
  (∀ (w : Word) (i : Instr), decode w = .command i → w = encode i) ∧
  (∀ (bs rest : List Byte) (i : Instr), decodeLanes bs = some (i, rest) → bs = wordLanes (encode i) ++ rest)

/-- R71: `Exec` dispatches on the whole command word; every other word is IllegalCommand. -/
def Obligations.ExecDispatchesOnTheCommandWord : Prop :=
  ∀ (s : State) (snap : Snapshot), s.nextTurn = .engine → s.pending = some snap →
    (snap.word = 0x00000001#32 → step s = exec .setpoly s.popTurn) ∧
    (snap.word = 0x00000002#32 → step s = exec .divide s.popTurn) ∧
    (snap.word = 0x00000003#32 → step s = exec .encode s.popTurn) ∧
    (snap.word = 0x00000004#32 → step s = exec .decode s.popTurn) ∧
    (snap.word ≠ 0x00000001#32 → snap.word ≠ 0x00000002#32 → snap.word ≠ 0x00000003#32 → snap.word ≠ 0x00000004#32 →
      step s = .next { s.popTurn with errCode := 4#4, pending := none })

/-- R72: which words are illegal, that one is issued like a legal one, and that its Complete step writes ERR_CODE 4 and nothing
else. -/
def Obligations.IllegalWordsCompleteWithCodeFour : Prop :=
  ∀ w : Word,
    ((w >>> 4 ≠ 0#32 ∨ w &&& 0xF#32 = 0#32 ∨ 5 ≤ (w &&& 0xF#32).toNat) ↔ ∃ why, decode w = .illegal why) ∧
    (∀ s : State, s.pending = none →
      ∃ t, s.memWrite 0x04 4 w = .ok t ∧ t.pending = some (s.snapshot w) ∧ t.busy = true) ∧
    (∀ (s : State) (snap : Snapshot), s.nextTurn = .engine → s.pending = some snap → snap.word = w →
      (w >>> 4 ≠ 0#32 ∨ w &&& 0xF#32 = 0#32 ∨ 5 ≤ (w &&& 0xF#32).toNat) →
      step s = .next { s.popTurn with errCode := 4#4, pending := none })

/-- A step runs the decoded instruction: in the engine's turn, with a pending word that decodes to a well-formed instruction, the
step is `exec` of it in the state whose turn has been taken off the schedule; the turn is all that the step adds. -/
def Obligations.StepRunsTheDecodedInstruction : Prop :=
  ∀ (s : State) (snap : Snapshot) (i : Instr), s.nextTurn = .engine → s.pending = some snap → i.wf = true →
    decode snap.word = .command i →
    step s = exec i s.popTurn ∧ s.popTurn = { s with schedule := s.schedule.tail }

/-! ### The four commands: result, errors in order, and frame -/

/-- SETPOLY (R100) with its checks in the order of R206: the next state, whole. The record says the frame: no other field changes.
On success POLY_VALID reads 1. -/
def Obligations.SetpolyCompletes : Prop :=
  encode .setpoly = 0x00000001#32 ∧
  ∀ (s : State) (snap : Snapshot), s.pending = some snap →
    exec .setpoly s = .next
      (if snap.polyLen.toNat > s.params.polyMax then { s with errCode := 3#4, pending := none }
       else if snap.polyLen.toNat < 32 ∧ snap.polyIn >>> snap.polyLen.toNat ≠ 0#32 then
         { s with errCode := 1#4, pending := none }
       else if snap.polyLen.toNat < 2 ∨ snap.polyIn.getLsbD (snap.polyLen.toNat - 1) = false then
         { s with errCode := 2#4, pending := none }
       else
         { s with polyHeldLen := snap.polyLen, polyHeld := snap.polyIn, errCode := 0#4, pending := none }) ∧
    (∀ t, exec .setpoly s = .next t → t.errCode = 0#4 → (t.readReg .status).getLsbD 1 = true)

/-- R101: SETPOLY succeeds exactly on a candidate that fits POLY_MAX (R7) and is a valid generator polynomial: no stray bit, at least
two elements, the first of them 1; nothing is required of the other elements. -/
def Obligations.SetpolyAcceptsExactlyValidPolynomials : Prop :=
  ∀ (s : State) (snap : Snapshot), s.pending = some snap →
    ∃ t, exec .setpoly s = .next t ∧
      (t.errCode = 0#4 ↔
        snap.polyLen.toNat ≤ s.params.polyMax ∧ snap.polyIn.toNat < 2 ^ snap.polyLen.toNat ∧ ValidSeq snap.polyInSeq)

/-- DIVIDE (R131): the next state, whole, with the checks in order and the results of `GF2Div`. -/
def Obligations.DivideCompletes : Prop :=
  encode .divide = 0x00000002#32 ∧
  ∀ (s : State) (snap : Snapshot) (q r : BitSeq), s.pending = some snap →
    gf2Div s.params.quotZeroRem (seqOf snap.dinLen.toNat snap.din.toNat) (seqOf snap.heldLen.toNat snap.held.toNat) = (q, r) →
    exec .divide s = .next
      (if snap.dinLen.toNat > s.params.wMax then { s with errCode := 3#4, pending := none }
       else if snap.dinLen.toNat < 128 ∧ snap.din >>> snap.dinLen.toNat ≠ 0#128 then
         { s with errCode := 1#4, pending := none }
       else if snap.heldLen.toNat = 0 then { s with errCode := 2#4, pending := none }
       else
         { s with
           rem := BitVec.ofNat 32 (val r), remRawLen := BitVec.ofNat 32 r.length
           quot := quadOf (BitVec.ofNat 128 (val q)), quotLen := BitVec.ofNat 32 q.length
           errCode := 0#4, pending := none })

/-- ENCODE (R150): the next state, whole. `c = m - 1`; the data padded with `c` zeros is divided, and the fixed-width remainder
appended to the data. -/
def Obligations.EncodeCompletes : Prop :=
  encode .encode = 0x00000003#32 ∧
  ∀ (s : State) (snap : Snapshot) (d p q r : BitSeq) (c : Nat), s.pending = some snap →
    d = seqOf snap.dinLen.toNat snap.din.toNat → p = seqOf snap.heldLen.toNat snap.held.toNat →
    c = snap.heldLen.toNat - 1 → gf2Div s.params.quotZeroRem (d ++ List.replicate c false) p = (q, r) →
    exec .encode s = .next
      (if snap.dinLen.toNat > s.params.wMax then { s with errCode := 3#4, pending := none }
       else if snap.dinLen.toNat < 128 ∧ snap.din >>> snap.dinLen.toNat ≠ 0#128 then
         { s with errCode := 1#4, pending := none }
       else if snap.heldLen.toNat = 0 then { s with errCode := 2#4, pending := none }
       else if snap.dinLen.toNat + c > s.params.wMax then { s with errCode := 3#4, pending := none }
       else
         { s with
           dout := quadOf (BitVec.ofNat 128 (val (d ++ (List.replicate (c - r.length) false ++ r))))
           doutLen := BitVec.ofNat 32 (snap.dinLen.toNat + c)
           rem := BitVec.ofNat 32 (val r), remRawLen := BitVec.ofNat 32 r.length
           errCode := 0#4, pending := none })

/-- DECODE (R155): the next state, whole. The received sequence is divided as it is; the verdict is 1 exactly when some element of
the raw remainder is 1. -/
def Obligations.DecodeCompletes : Prop :=
  encode .decode = 0x00000004#32 ∧
  ∀ (s : State) (snap : Snapshot) (q r : BitSeq), s.pending = some snap →
    gf2Div s.params.quotZeroRem (seqOf snap.dinLen.toNat snap.din.toNat) (seqOf snap.heldLen.toNat snap.held.toNat) = (q, r) →
    exec .decode s = .next
      (if snap.dinLen.toNat > s.params.wMax then { s with errCode := 3#4, pending := none }
       else if snap.dinLen.toNat < 128 ∧ snap.din >>> snap.dinLen.toNat ≠ 0#128 then
         { s with errCode := 1#4, pending := none }
       else if snap.heldLen.toNat = 0 then { s with errCode := 2#4, pending := none }
       else
         { s with
           errDetected := decide (true ∈ r)
           rem := BitVec.ofNat 32 (val r), remRawLen := BitVec.ofNat 32 r.length
           errCode := 0#4, pending := none })

/-- R207: DIVIDE, ENCODE and DECODE report the first error that applies, and exactly one code: the length over W_MAX, a stray bit,
no polynomial held, and for ENCODE only the codeword over W_MAX; 0 where none applies. -/
def Obligations.OperandErrorsAreReportedInOrder : Prop :=
  ∀ (s : State) (snap : Snapshot) (i : Instr), s.pending = some snap → i = .divide ∨ i = .encode ∨ i = .decode →
    ∃ t, exec i s = .next t ∧ t.errCode =
      (if snap.dinLen.toNat > s.params.wMax then 3#4
       else if ¬ snap.din.toNat < 2 ^ snap.dinLen.toNat then 1#4
       else if snap.heldLen = 0#32 then 2#4
       else if i = .encode ∧ snap.dinLen.toNat + snap.heldLen.toNat - 1 > s.params.wMax then 3#4
       else 0#4)

/-- R200: when `Exec` raises an error, the Complete step writes its code to ERR_CODE, clears PENDING so that BUSY reads 0, and writes
nothing else; the host may then issue any next command with nothing to acknowledge; and a command ends with a code other than 0
in no other way. -/
def Obligations.FailingCommandWritesOnlyErrCode : Prop :=
  (∀ (s : State) (snap : Snapshot) (e : CommandError), s.nextTurn = .engine → s.pending = some snap →
    commandResult s.params snap = .error e →
    ∃ t, step s = .next t ∧ t = { s.popTurn with errCode := errorCode e, pending := none } ∧
      (t.readReg .status).getLsbD 0 = false ∧
      (∀ v, t.memWrite 0x04 4 v = .ok { t with pending := some (t.snapshot v) })) ∧
  (∀ (s : State) (snap : Snapshot) (i : Instr), s.pending = some snap →
    ∃ t, exec i s = .next t ∧ t.pending = none ∧
      (t.errCode ≠ 0#4 → t = { s with errCode := t.errCode, pending := none }))

/-- R43: the frame of each command. On success a register that R43 does not list for the command keeps its value; only DECODE writes
ERR_DETECTED; CMD_OVR, the parameters, the host and the turns to come are unchanged. On failure no register beside STATUS changes,
and in STATUS neither ERR_DETECTED nor CMD_OVR. No Complete step writes an input register. -/
def Obligations.CommandsWriteOnlyTheirRegisters : Prop :=
  (∀ (s t : State) (snap : Snapshot) (i : Instr), s.pending = some snap → exec i s = .next t →
    (∀ r : Reg, r ≠ .status → r ∉ writtenRegs i ∨ t.errCode ≠ 0#4 → t.readReg r = s.readReg r) ∧
    (i ≠ .decode ∨ t.errCode ≠ 0#4 → t.errDetected = s.errDetected) ∧
    t.cmdOvr = s.cmdOvr ∧ t.params = s.params ∧ t.host = s.host ∧ t.schedule = s.schedule) ∧
  (∀ s t : State, s.nextTurn = .engine → step s = .next t → ∀ r ∈ inputRegs, t.readReg r = s.readReg r)

/-- R42: a command is a function of its snapshot and the parameters: in two states that agree on those, whatever the registers hold,
it reports the same code, and on success it leaves the same values in every register it writes. -/
def Obligations.ExecDependsOnlyOnSnapshotAndParameters : Prop :=
  ∀ (s u : State) (snap : Snapshot) (i : Instr), s.pending = some snap → u.pending = some snap → s.params = u.params →
    ∃ t v, exec i s = .next t ∧ exec i u = .next v ∧ t.errCode = v.errCode ∧
      (t.errCode = 0#4 → (∀ r ∈ writtenRegs i, t.readReg r = v.readReg r) ∧
        (i = .decode → t.errDetected = v.errDetected))

/-! ### The divider -/

/-- R121: the XOR step changes exactly the first `m` elements, each by exclusive or with the divisor's, and keeps the length,
whatever `w[0]` is. R122: strip removes every leading 0 element; it is done after each XOR step, and a dividend
shorter than the divisor is never stripped. -/
def Obligations.XorStepAndStripAct : Prop :=
  (∀ p w : BitSeq, p.length ≤ w.length →
    (xorStep p w).length = w.length ∧
    (∀ (i : Nat) (x b : Bool), w[i]? = some x → p[i]? = some b → (xorStep p w)[i]? = some (x ^^ b)) ∧
    (∀ i : Nat, p.length ≤ i → (xorStep p w)[i]? = w[i]?)) ∧
  (∀ w : BitSeq, ∃ n : Nat, w = List.replicate n false ++ strip w ∧ (strip w = [] ∨ (strip w).head? = some true)) ∧
  (∀ d p : BitSeq, d.length < p.length → rawRemainder d p = d) ∧
  (∀ d p : BitSeq, p.head? = some true → p.length ≤ d.length → rawRemainder d p = rawRemainder (strip (xorStep p d)) p)

/-- R120, R123: the division goes on while the working sequence is at least as long as the divisor, each pass an XOR step and a
strip, and exits the first time it is shorter; the quotient is the dividend without its last `k` elements, or what QUOT_ZERO_REM
says for `k = 0`. For every divisor that begins with 1. -/
def Obligations.DivisionRunsToItsExit : Prop :=
  ∀ (d p : BitSeq), p.head? = some true →
    rawRemainder d p = (if p.length ≤ d.length then rawRemainder (strip (xorStep p d)) p else d) ∧
    (rawRemainder d p).length < p.length ∧
    (∀ z, gf2Div z d p =
      (if rawRemainder d p = [] ∧ z = .empty then [] else d.take (d.length - (rawRemainder d p).length), rawRemainder d p))

/-- R127: an XOR step adds `poly(p)·x^(len(w)-m)`, a strip keeps the polynomial, so the working sequence after any number of passes
is congruent to the dividend modulo the divisor, and the remainder of the division is the polynomial
remainder over GF(2); in register terms `val(r) = clmod(val(d), val(p))`. -/
def Obligations.RemainderIsThePolynomialRemainder : Prop :=
  (∀ p w : BitSeq, p.length ≤ w.length →
    polyOf (xorStep p w) = polyOf w + polyOf p * Polynomial.X ^ (w.length - p.length)) ∧
  (∀ w : BitSeq, polyOf (strip w) = polyOf w) ∧
  (∀ (n : Nat) (d p : BitSeq), ValidSeq p → polyOf p ∣ polyOf (divLoop n p d) - polyOf d) ∧
  (∀ d p : BitSeq, ValidSeq p →
    polyOf (rawRemainder d p) = Polynomial.modByMonic (polyOf d) (polyOf p) ∧
    val (rawRemainder d p) = clmod (val d) (val p))

/-- R128: the length of the raw remainder, and the closed form of the division. -/
def Obligations.RemainderLengthAndClosedForm : Prop :=
  ∀ d p : BitSeq, ValidSeq p →
    (d.length < p.length → rawRemainder d p = d) ∧
    (p.length ≤ d.length →
      (rawRemainder d p = [] ∨ (rawRemainder d p).head? = some true) ∧
      (rawRemainder d p).length = (val (rawRemainder d p)).size) ∧
    (rawRemainder d p).length ≤ p.length - 1 ∧ (p.length ≤ 32 → (rawRemainder d p).length ≤ 31) ∧
    rawRemainder d p =
      seqOf (if d.length < p.length then d.length else (clmod (val d) (val p)).size) (clmod (val d) (val p))

/-- R129: when the dividend begins with 0 and is long enough, the first XOR step makes the leading element 1 and the strip after it
removes nothing; the second restores the dividend, and the strip after that removes its leading zeros. -/
def Obligations.TwoPassesStripLeadingZeros : Prop :=
  ∀ d p : BitSeq, ValidSeq p → p.length ≤ d.length → d.head? = some false →
    (xorStep p d).head? = some true ∧ strip (xorStep p d) = xorStep p d ∧ (xorStep p d).length = d.length ∧
    xorStep p (xorStep p d) = d ∧ strip (xorStep p (strip (xorStep p d))) = strip d

/-- R130: the number of XOR passes. Its first clause is the model's own and no rule of the spec: that the bound the model cuts the loop
off at (log 11, DEDUCED) is never what ends it, since any greater bound makes the same passes. -/
def Obligations.PassesAreBounded : Prop :=
  ∀ (d p : BitSeq) (more : Nat), ValidSeq p →
    divPasses (passBound d + more) p d = divPasses (passBound d) p d ∧
    (d.length < p.length → divPasses (passBound d) p d = 0) ∧
    (p.length ≤ d.length → d.head? = some true → divPasses (passBound d) p d ≤ d.length - p.length + 1) ∧
    (p.length ≤ d.length → d.head? = some false → divPasses (passBound d) p d ≤ d.length - p.length + 2) ∧
    divPasses (passBound d) p d ≤ d.length

/-! ### The codec -/

/-- R153: what a successful ENCODE leaves, in register terms. -/
def Obligations.EncodeLeavesDataAboveCheckBits : Prop :=
  ∀ (s t : State) (snap : Snapshot) (L c : Nat), s.params.wf = true → s.pending = some snap →
    ValidPoly s.params snap.heldLen snap.held → L = snap.dinLen.toNat → c = snap.heldLen.toNat - 1 →
    exec .encode s = .next t → t.errCode = 0#4 →
    quadValue t.dout = (snap.din <<< c) ||| t.rem.setWidth 128 ∧
    t.doutLen.toNat = L + c ∧ (quadValue t.dout).toNat < 2 ^ (L + c) ∧
    t.rem.toNat < 2 ^ c ∧ (quadValue t.dout) >>> c = snap.din

/-- R156: the verdict is true exactly when some bit of the raw remainder is 1, the same for the fixed-width remainder, and exactly when
REM is not 0; STATUS.ERR_DETECTED reads it. -/
def Obligations.VerdictIsWhetherRemIsNonzero : Prop :=
  ∀ (s : State) (snap : Snapshot) (r : BitSeq), s.params.wf = true → s.pending = some snap →
    ValidPoly s.params snap.heldLen snap.held → snap.dinLen.toNat ≤ s.params.wMax →
    snap.din.toNat < 2 ^ snap.dinLen.toNat → r = rawRemainder snap.dinSeq snap.heldSeq →
    ∃ t, exec .decode s = .next t ∧ t.errCode = 0#4 ∧
      (t.errDetected = true ↔ true ∈ r) ∧
      (t.errDetected = true ↔ true ∈ fixedWidth (snap.heldLen.toNat - 1) r) ∧
      (t.errDetected = true ↔ t.readReg .rem ≠ 0#32) ∧
      (t.readReg .status).getLsbD 2 = t.errDetected

/-- R157, the round trip: for every data sequence whose codeword fits, ENCODE succeeds, and DECODE of what it wrote completes with
ERR_CODE 0 and ERR_DETECTED 0, whatever else has happened to the block in between as long as the same polynomial is held. -/
def Obligations.EncodeThenDecodeDetectsNoError : Prop :=
  ∀ (s : State) (snap : Snapshot), s.params.wf = true → s.pending = some snap →
    ValidPoly s.params snap.heldLen snap.held → snap.din.toNat < 2 ^ snap.dinLen.toNat →
    snap.dinLen.toNat + (snap.heldLen.toNat - 1) ≤ s.params.wMax →
    ∃ t, exec .encode s = .next t ∧ t.errCode = 0#4 ∧
      ∀ (u : State) (received : Snapshot), u.params = s.params → u.pending = some received →
        received.heldLen = snap.heldLen → received.held = snap.held →
        received.dinLen = t.doutLen → received.din = quadValue t.dout →
        ∃ v, exec .decode u = .next v ∧ v.errCode = 0#4 ∧ v.errDetected = false

/-- R158, its law: DECODE of a codeword with the element at position `j` inverted has verdict 1 exactly when the generator does not
divide `x^(N-1-j)`, `N` the codeword's length. -/
def Obligations.SingleFlipDetectedUnlessGeneratorDividesThePower : Prop :=
  ∀ (s t u : State) (snap received : Snapshot) (j : Nat), s.params.wf = true → s.pending = some snap →
    ValidPoly s.params snap.heldLen snap.held → exec .encode s = .next t → t.errCode = 0#4 →
    u.params = s.params → u.pending = some received →
    received.heldLen = snap.heldLen → received.held = snap.held → received.dinLen = t.doutLen →
    j < t.doutLen.toNat → received.din = quadValue t.dout ^^^ (1#128 <<< (t.doutLen.toNat - 1 - j)) →
    ∃ v, exec .decode u = .next v ∧ v.errCode = 0#4 ∧
      (v.errDetected = true ↔ ¬ polyOf snap.heldSeq ∣ Polynomial.X ^ (t.doutLen.toNat - 1 - j))

/-- R158, its two cases: with a generator of two or more terms every single flip of a codeword is detected; with the single term
`x^c`, a flip is detected exactly in the last `c` positions. -/
def Obligations.SingleFlipsByNumberOfTerms : Prop :=
  ∀ (s t u : State) (snap received : Snapshot) (j : Nat), s.params.wf = true → s.pending = some snap →
    ValidPoly s.params snap.heldLen snap.held → exec .encode s = .next t → t.errCode = 0#4 →
    u.params = s.params → u.pending = some received →
    received.heldLen = snap.heldLen → received.held = snap.held → received.dinLen = t.doutLen →
    j < t.doutLen.toNat → received.din = quadValue t.dout ^^^ (1#128 <<< (t.doutLen.toNat - 1 - j)) →
    ∃ v, exec .decode u = .next v ∧ v.errCode = 0#4 ∧
      (2 ≤ snap.heldSeq.count true → v.errDetected = true) ∧
      (snap.heldSeq.count true = 1 →
        (v.errDetected = true ↔ t.doutLen.toNat - (snap.heldLen.toNat - 1) ≤ j))

/-! ### Bit sequences and registers -/

/-- R12: the polynomial of a sequence, and `val` and `seq_L`: the sums, the bound, the elements, and that each undoes the other. -/
def Obligations.ValueAndSequenceAreInverse : Prop :=
  (∀ s : BitSeq, polyOf s = ∑ i : Fin s.length, (if s[i] then Polynomial.X ^ (s.length - 1 - i.val) else 0)) ∧
  polyOf [true, false, true] = Polynomial.X ^ 2 + 1 ∧
  (∀ s : BitSeq, val s = ∑ i : Fin s.length, (s[i]).toNat * 2 ^ (s.length - 1 - i.val)) ∧
  (∀ s : BitSeq, val s < 2 ^ s.length ∧ seqOf s.length (val s) = s) ∧
  (∀ (L v i : Nat), i < L → (seqOf L v)[i]? = some (v.testBit (L - 1 - i))) ∧
  (∀ L v : Nat, (seqOf L v).length = L ∧ val (seqOf L v) = v % 2 ^ L)

/-- R55: the word at `base + 4j` holds bits `[32j+31:32j]` of the 128-bit value; a sequence's first element is in word
`floor((L-1)/32)`, its last elements in word 0. -/
def Obligations.WordsOfSequenceRegisters : Prop :=
  (∀ (s : State) (j : Nat), j < 4 →
    s.memRead (0x30 + 4 * j) 4 = .ok ((quadValue s.din).extractLsb' (32 * j) 32) ∧
    s.memRead (0x50 + 4 * j) 4 = .ok ((quadValue s.dout).extractLsb' (32 * j) 32) ∧
    s.memRead (0x70 + 4 * j) 4 = .ok ((quadValue s.quot).extractLsb' (32 * j) 32)) ∧
  (∀ (s : State) (L base : Nat) (q : Quad), 1 ≤ L → L ≤ 128 →
    (base, q) ∈ [(0x30, s.din), (0x50, s.dout), (0x70, s.quot)] →
    ∃ w w', s.memRead (base + 4 * ((L - 1) / 32)) 4 = .ok w ∧ s.memRead base 4 = .ok w' ∧
      (seqOf L (quadValue q).toNat).head? = some (w.getLsbD ((L - 1) % 32)) ∧
      (seqOf L (quadValue q).toNat).getLast? = some (w'.getLsbD 0))

/-- R22: CAP reports the parameters in its fields and reads 0 above them; a host write to it is an access error; nothing changes it,
reset included. -/
def Obligations.CapReportsTheParameters : Prop :=
  (∀ s : State, s.params.wf = true →
    ∃ w, s.memRead 0x00 4 = .ok w ∧ (w.extractLsb' 0 8).toNat = s.params.wMax ∧
      (w.extractLsb' 8 8).toNat = s.params.polyMax ∧ w.extractLsb' 16 16 = 0#16) ∧
  (∀ (s : State) (v : Word), ∃ c, s.memWrite 0x00 4 v = .error c) ∧
  (∀ s t : State, step s = .next t → t.readReg .cap = s.readReg .cap ∧ t.params = s.params)

/-- R24 to R26: what a read of STATUS returns, field by field. -/
def Obligations.StatusReadsItsFields : Prop :=
  ∀ s : State, ∃ w, s.memRead 0x08 4 = .ok w ∧
    (w.getLsbD 0 = true ↔ s.pending ≠ none) ∧
    (w.getLsbD 1 = true ↔ s.polyHeldLen ≠ 0#32) ∧
    w.getLsbD 2 = s.errDetected ∧ w.getLsbD 3 = s.cmdOvr ∧ w.extractLsb' 4 4 = s.errCode ∧ w.extractLsb' 8 24 = 0#24

/-- R25: BUSY is 1 exactly while a command is pending; it becomes 1 only at a CMD write that issues a command, and 0 only at that
command's Complete step or at reset. -/
def Obligations.BusyFollowsThePendingCommand : Prop :=
  ∀ s t : State, step s = .next t →
    ((s.readReg .status).getLsbD 0 = true ↔ s.pending ≠ none) ∧
    (s.pending = none →
      (t.pending ≠ none ↔ s.nextTurn = .host ∧ ∃ v, HostWrites s 0x04 v)) ∧
    (s.pending ≠ none →
      (t.pending = none ↔ s.nextTurn = .engine ∨ s.nextTurn = .reset))

/-- R40 and R210: a write to CMD while a command is pending sets CMD_OVR and changes nothing else; otherwise it copies every field of
the snapshot, checks nothing, and changes nothing else. -/
def Obligations.CmdWriteIssuesOrIsDropped : Prop :=
  ∀ (s : State) (v : Word),
    (s.pending ≠ none → s.memWrite 0x04 4 v = .ok { s with cmdOvr := true }) ∧
    (s.pending = none → s.memWrite 0x04 4 v = .ok
      { s with
        pending := some
          { word := v, polyLen := s.polyLen, polyIn := s.polyIn, heldLen := s.polyHeldLen, held := s.polyHeld
            dinLen := s.dinLen, din := s.din.w3 ++ s.din.w2 ++ s.din.w1 ++ s.din.w0 } })

/-- R30: a write to STATUS clears CMD_OVR when bit 3 of the value is 1, does nothing else, and is never an access error. -/
def Obligations.StatusWriteClearsCmdOvrOnly : Prop :=
  ∀ (s : State) (v : Word),
    (v.getLsbD 3 = true → s.memWrite 0x08 4 v = .ok { s with cmdOvr := false }) ∧
    (v.getLsbD 3 = false → s.memWrite 0x08 4 v = .ok s)

/-- R58, R31, R32, R34: a write to an input register stores every bit, and a read gives it back; every other register, the pending
command and the host are as before. No read has a side effect: a host read line changes the host's temporary and its place in the
program, nothing else; so does a 32-bit read at the register's platform address. -/
def Obligations.InputRegistersStoreAndReadsHaveNoEffect : Prop :=
  (∀ (s : State) (r : Reg) (v : Word), r ∈ inputRegs →
    ∃ t, s.memWrite r.offset 4 v = .ok t ∧ t.memRead r.offset 4 = .ok v ∧
      (∀ r' : Reg, r' ≠ r → t.readReg r' = s.readReg r') ∧
      t.pending = s.pending ∧ t.params = s.params ∧ t.host = s.host ∧ t.schedule = s.schedule) ∧
  (∀ (s : State) (l : HostLine) (r : Reg) (n : Nat), s.nextTurn = .host → s.host.program[s.host.pc]? = some l →
    (l.op = .rd r.offset n ∨ l.op = .readAt (s.params.base + r.offset) 4 n) →
    step s = .next
      { s with
        schedule := s.schedule.tail
        host := { s.host with temps := tempWrite s.host.temps n (s.readReg r), pc := s.host.pc + 1 } })

/-- R51, R52: a host access inside the window, by a line RD, WR or WRT or by an access of any size at the platform address, is a
BusError fault of the host where it is not 32 bits wide, not aligned, or at a reserved offset; every other read succeeds. (Which of the
other writes succeed is R53.) -/
def Obligations.OnlyAlignedWordAccessesAtRegisters : Prop :=
  ∀ (s : State) (l : HostLine) (off size n : Nat) (v : Word), s.nextTurn = .host →
    s.host.program[s.host.pc]? = some l → off < 128 →
    (l.op = .readAt (s.params.base + off) size n ∨ l.op = .writeAt (s.params.base + off) size v ∨
      (size = 4 ∧ (l.op = .rd off n ∨ l.op = .wr off v ∨ l.op = .wrt off n))) →
    ((size ≠ 4 ∨ off % 4 ≠ 0 ∨ off ∈ reservedOffsets) → ∃ c, step s = .fault (.busError c)) ∧
    (size = 4 → off % 4 = 0 → off ∉ reservedOffsets →
      (l.op = .readAt (s.params.base + off) size n ∨ l.op = .rd off n) → ∃ t, step s = .next t)

/-- R53: the access rules of each register class. A write to a read-only register is a BusError; a read of CMD returns 0; a write
to STATUS is no error; the RW registers are read and written at any time. -/
def Obligations.AccessRulesOfRegisterClasses : Prop :=
  (∀ (s : State) (off : Nat) (v : Word),
    off ∈ [0x00, 0x18, 0x1C, 0x40, 0x50, 0x54, 0x58, 0x5C, 0x60, 0x64, 0x68, 0x70, 0x74, 0x78, 0x7C] →
      s.memWrite off 4 v = .error .readOnly ∧
      ∀ l, s.nextTurn = .host → s.host.program[s.host.pc]? = some l → l.op = .wr off v →
        step s = .fault (.busError .readOnly)) ∧
  (∀ s : State, s.memRead 0x04 4 = .ok 0#32) ∧
  (∀ (s : State) (v : Word), ∃ t, s.memWrite 0x08 4 v = .ok t) ∧
  (∀ (s : State) (off : Nat) (v : Word), off ∈ [0x10, 0x14, 0x20, 0x30, 0x34, 0x38, 0x3C] →
    (∃ w, s.memRead off 4 = .ok w) ∧ ∃ t, s.memWrite off 4 v = .ok t)

/-- R50: an access to `BASE + off` reaches window offset `off`, and no address outside the 128 bytes reaches the block; that such an
address is a BusError of the host is the model's (log 8). -/
def Obligations.AccessesReachTheWindowAtBase : Prop :=
  ∀ (s : State) (size : Nat) (v : Word),
    (∀ off : Nat, off < 128 →
      s.platformRead (s.params.base + off) size = s.memRead off size ∧
      s.platformWrite (s.params.base + off) size v = s.memWrite off size v) ∧
    (∀ addr : Nat, addr < s.params.base ∨ s.params.base + 128 ≤ addr →
      s.platformRead addr size = .error .outsideWindow ∧ s.platformWrite addr size v = .error .outsideWindow)

/-! ### Rules of the whole machine -/

/-- R28: CMD_OVR is set exactly by a CMD write made while a command is pending, and once set is cleared exactly by a host write to
STATUS with bit 3 = 1 or by reset. -/
def Obligations.CmdOvrIsStickyUntilCleared : Prop :=
  ∀ s t : State, step s = .next t →
    (s.cmdOvr = false →
      (t.cmdOvr = true ↔ s.nextTurn = .host ∧ s.pending ≠ none ∧ ∃ v, HostWrites s 0x04 v)) ∧
    (s.cmdOvr = true →
      (t.cmdOvr = false ↔
        s.nextTurn = .reset ∨ (s.nextTurn = .host ∧ ∃ v, HostWrites s 0x08 v ∧ v.getLsbD 3 = true)))

/-- R27: ERR_DETECTED is written by a DECODE that completes without error, with its verdict, and set to 0 by reset; nothing else
changes it. -/
def Obligations.ErrDetectedIsTheLastVerdict : Prop :=
  ∀ s t : State, step s = .next t →
    (s.nextTurn = .reset → t.errDetected = false) ∧
    (∀ snap, s.nextTurn = .engine → s.pending = some snap → snap.word = 0x00000004#32 → t.errCode = 0#4 →
      t.errDetected = decide (true ∈ rawRemainder snap.dinSeq snap.heldSeq)) ∧
    (t.errDetected ≠ s.errDetected →
      s.nextTurn = .reset ∨
      (s.nextTurn = .engine ∧ ∃ snap, s.pending = some snap ∧ snap.word = 0x00000004#32 ∧ t.errCode = 0#4))

/-- R29: ERR_CODE is written at every Complete step, 0 on success and the error's code on failure; it is not written at issue or by
any other host access; reset sets it to 0. -/
def Obligations.ErrCodeIsWrittenAtComplete : Prop :=
  ∀ s t : State, step s = .next t →
    (∀ snap, s.nextTurn = .engine → s.pending = some snap → t.errCode = resultCode (commandResult s.params snap)) ∧
    (s.nextTurn = .engine → s.pending = none → t.errCode = s.errCode) ∧
    (s.nextTurn = .host → t.errCode = s.errCode) ∧
    (s.nextTurn = .reset → t.errCode = 0#4)

/-- R201: the codes, that the reserved codes 5 to 15 are never produced, and that 4 is the code of the illegal words and of no
other. -/
def Obligations.ErrCodesAreZeroToFour : Prop :=
  errorCode .invalidBit = 1#4 ∧ errorCode .divisorDegenerate = 2#4 ∧ errorCode .lengthOverflow = 3#4 ∧
  errorCode .illegalCommand = 4#4 ∧
  (∀ s t : State, s.errCode.toNat ≤ 4 → step s = .next t → t.errCode.toNat ≤ 4) ∧
  (∀ (s t : State) (snap : Snapshot), s.nextTurn = .engine → s.pending = some snap → step s = .next t →
    t.errCode.toNat ≤ 4 ∧ (t.errCode = 4#4 ↔ ∃ why, decode snap.word = .illegal why))

/-- R103: only a SETPOLY that succeeds changes the held polynomial (and reset, R250): it then holds the snapshot's candidate, and no
result register or verdict is cleared. -/
def Obligations.OnlySetpolyReplacesTheHeldPolynomial : Prop :=
  ∀ s t : State, step s = .next t →
    (t.polyHeldLen ≠ s.polyHeldLen ∨ t.polyHeld ≠ s.polyHeld →
      s.nextTurn = .reset ∨
      (s.nextTurn = .engine ∧ ∃ snap, s.pending = some snap ∧ snap.word = 0x00000001#32 ∧ t.errCode = 0#4)) ∧
    (∀ snap, s.nextTurn = .engine → s.pending = some snap → snap.word = 0x00000001#32 → t.errCode = 0#4 →
      t.polyHeldLen = snap.polyLen ∧ t.polyHeld = snap.polyIn ∧
      t.rem = s.rem ∧ t.remRawLen = s.remRawLen ∧ t.dout = s.dout ∧ t.doutLen = s.doutLen ∧
      t.quot = s.quot ∧ t.quotLen = s.quotLen ∧ t.errDetected = s.errDetected)

/-- R61: no host access reaches a command already issued: while a command is pending, no host turn changes its snapshot, so
that its Complete step is that of the inputs at issue; and a write to an input register reaches the next command with nothing in
between. -/
def Obligations.HostAccessesNeverReachAPendingCommand : Prop :=
  (∀ (s t : State) (snap : Snapshot), s.pending = some snap → s.nextTurn = .host → step s = .next t →
    t.pending = some snap ∧ t.params = s.params ∧
    (∀ i : Instr, ∃ u v, exec i s = .next u ∧ exec i t = .next v ∧ u.errCode = v.errCode ∧
      (u.errCode = 0#4 → (∀ r ∈ writtenRegs i, u.readReg r = v.readReg r) ∧
        (i = .decode → u.errDetected = v.errDetected)))) ∧
  (∀ (s t : State) (r : Reg) (v w : Word), s.pending = none → s.memWrite r.offset 4 v = .ok t → r ∈ inputRegs →
    ∃ u snap, t.memWrite 0x04 4 w = .ok u ∧ u.pending = some snap ∧ snap.word = w ∧
      (r = .polyLen → snap.polyLen = v) ∧ (r = .polyIn → snap.polyIn = v) ∧ (r = .dinLen → snap.dinLen = v) ∧
      (r = .din0 → snap.din.extractLsb' 0 32 = v) ∧ (r = .din1 → snap.din.extractLsb' 32 32 = v) ∧
      (r = .din2 → snap.din.extractLsb' 64 32 = v) ∧ (r = .din3 → snap.din.extractLsb' 96 32 = v))

/-- R57: the result registers, the held polynomial, ERR_CODE and ERR_DETECTED change only at a Complete step or at reset: no host
turn changes them. -/
def Obligations.ResultsChangeOnlyAtComplete : Prop :=
  ∀ s t : State, s.nextTurn = .host → step s = .next t →
    (∀ r ∈ [Reg.polyHeldLen, .polyHeld, .doutLen, .dout0, .dout1, .dout2, .dout3, .remRawLen, .rem, .quotLen, .quot0, .quot1,
      .quot2, .quot3], t.readReg r = s.readReg r) ∧
    t.errCode = s.errCode ∧ t.errDetected = s.errDetected

/-- R250: reset, at any time, gives every register its reset value, keeps CAP, and abandons a pending command. -/
def Obligations.ResetGivesEveryRegisterItsResetValue : Prop :=
  ∀ s : State, s.nextTurn = .reset →
    ∃ t, step s = .next t ∧ (∀ r : Reg, r ≠ .cap → t.readReg r = 0#32) ∧ t.readReg .cap = s.readReg .cap ∧
      t.errDetected = false ∧ t.cmdOvr = false ∧ t.errCode = 0#4 ∧ t.pending = none

/-- The state after reset meets the invariant, for every choice of the parameters within their bounds. -/
def Obligations.ResetStateMeetsTheInvariant : Prop :=
  (∀ p : Params, p.wf = true → Inv (State.resetWith p)) ∧ Inv State.reset

/-- R44: from every state in which the held polynomial is empty or valid, one step of any agent leads to such a state. -/
def Obligations.HeldPolynomialStaysEmptyOrValid : Prop :=
  (∀ p : Params, HeldOk p (State.resetWith p).polyHeldLen (State.resetWith p).polyHeld) ∧
  (∀ s t : State, HeldOk s.params s.polyHeldLen s.polyHeld → step s = .next t →
    HeldOk t.params t.polyHeldLen t.polyHeld)

/-- Every step keeps the invariant of the machine: the parameters' bounds, the held polynomial and the snapshot's (R44), results that
fit their registers and lengths (R35 to R37), ERR_CODE at most 4 (R201), and the canonical form of the host's temporaries. -/
def Obligations.EveryStepKeepsTheInvariant : Prop :=
  ∀ s t : State, Inv s → step s = .next t → Inv t

/-- R10, R257: no command stays pending for ever. The turns to come are a finite list and the engine moves when they are used up,
so a run that meets no fault reaches a state with no command pending within that many steps and one more. That the list is finite and
what follows it are the model's (log 3). -/
def Obligations.PendingCommandEventuallyCompletes : Prop :=
  ∀ s t : State, core.run (s.schedule.length + 1) s = .next t →
    ∃ (n : Nat) (u : State), n ≤ s.schedule.length + 1 ∧ core.run n s = .next u ∧ u.pending = none

/-- R60, R61: in a run, the pending command stays pending with its snapshot until a Complete step or a reset; so a host that sees
BUSY = 0 sees it after that step. -/
def Obligations.BusyClearsOnlyByCompleteOrReset : Prop :=
  ∀ (n : Nat) (s t : State) (snap : Snapshot), s.pending = some snap → core.run n s = .next t → t.pending = none →
    ∃ (k : Nat) (u v : State), k < n ∧ core.run k s = .next u ∧ u.pending = some snap ∧ step u = .next v ∧
      v.pending = none ∧ (u.nextTurn = .engine ∨ u.nextTurn = .reset)

/-- The turns: the first listed, or with none listed the engine while a command is pending and the host otherwise; the engine's turn
with no command pending changes nothing but the schedule, and so does the host's turn at the end of its program. The model's (log 3,
log 4). -/
def Obligations.TurnsComeFromTheSchedule : Prop :=
  (∀ (s : State) (a : Turn) (as : List Turn), s.schedule = a :: as → s.nextTurn = a) ∧
  (∀ s : State, s.schedule = [] → (s.nextTurn = .engine ↔ s.pending ≠ none) ∧ (s.nextTurn = .host ↔ s.pending = none)) ∧
  (∀ s : State, s.nextTurn = .engine → s.pending = none → step s = .next { s with schedule := s.schedule.tail }) ∧
  (∀ s : State, s.nextTurn = .host → s.host.program.length ≤ s.host.pc →
    step s = .next { s with schedule := s.schedule.tail })

/-- R75: what each host line does in the host's turn: WR and WRT write the window, RD reads it, and each is a BusError where the
access is one; BNZ, XORI and a comment touch only the host. That a branch to a label no line carries is refused is the model's (log
13). -/
def Obligations.HostLinesDoWhatTheNotationSays : Prop :=
  ∀ (s u : State) (l : HostLine), s.nextTurn = .host → u = s.popTurn → s.host.program[s.host.pc]? = some l →
    (∀ off v, off < 128 → l.op = .wr off v →
      (∀ t, u.memWrite off 4 v = .ok t → step s = .next { t with host := { u.host with pc := u.host.pc + 1 } }) ∧
      (∀ c, u.memWrite off 4 v = .error c → step s = .fault (.busError c))) ∧
    (∀ off n, off < 128 → l.op = .wrt off n →
      (∀ t, u.memWrite off 4 (u.temp n) = .ok t → step s = .next { t with host := { u.host with pc := u.host.pc + 1 } }) ∧
      (∀ c, u.memWrite off 4 (u.temp n) = .error c → step s = .fault (.busError c))) ∧
    (∀ off n, off < 128 → l.op = .rd off n →
      (∀ w, u.memRead off 4 = .ok w →
        ∃ t, step s = .next t ∧ t.host.pc = s.host.pc + 1 ∧ (tempsWf s.host.temps = true → t.temp n = w) ∧
          (∀ k, k ≠ n → t.temp k = s.temp k) ∧ (∀ r : Reg, t.readReg r = s.readReg r) ∧ t.pending = s.pending) ∧
      (∀ c, u.memRead off 4 = .error c → step s = .fault (.busError c))) ∧
    (∀ n mask label, l.op = .bnz n mask label →
      (s.temp n &&& mask = 0#32 → step s = .next { u with host := { u.host with pc := u.host.pc + 1 } }) ∧
      (s.temp n &&& mask ≠ 0#32 →
        (∀ k, findLabel s.host.program label = some k → step s = .next { u with host := { u.host with pc := k } }) ∧
        (findLabel s.host.program label = none → step s = .refused (.undefinedLabel label)))) ∧
    (∀ n v, l.op = .xori n v →
      ∃ t, step s = .next t ∧ t.host.pc = s.host.pc + 1 ∧
        (tempsWf s.host.temps = true → t.temp n = s.temp n ^^^ v) ∧
        (∀ k, k ≠ n → t.temp k = s.temp k) ∧ (∀ r : Reg, t.readReg r = s.readReg r) ∧ t.pending = s.pending) ∧
    (l.op = .comment → step s = .next { u with host := { u.host with pc := u.host.pc + 1 } })

/-- R76: a run of the lines of LDPOLY or LDDIN, from every state whose host is at the first of them with host turns next: which
registers they write with what, and that nothing else changes but the host's place and the turns; for a string that fits, the view of
R38 is then the string, and there is no stray bit. That the low 32 bits of POLY_IN's value are written for a longer string, and of a
length from 2^32 up, is the model's (log 14). -/
def Obligations.LoadedDigitStringsAreTheViews : Prop :=
  (∀ (s : State) (b : BitSeq), AtLines s (linesLDPOLY b) → HostTurnsNext 2 s →
    ∃ t, core.run 2 s = .next t ∧
      t = { s with
        polyLen := BitVec.ofNat 32 b.length, polyIn := BitVec.ofNat 32 (val b)
        host := { s.host with pc := s.host.pc + 2 }, schedule := s.schedule.drop 2 } ∧
      (b.length ≤ 32 → ∀ w, (t.snapshot w).polyInSeq = b ∧ (t.snapshot w).polyIn.toNat < 2 ^ b.length)) ∧
  (∀ (s : State) (b : BitSeq), AtLines s (linesLDDIN b) → HostTurnsNext 5 s →
    ∃ t, core.run 5 s = .next t ∧
      t = { s with
        dinLen := BitVec.ofNat 32 b.length
        din := { w0 := BitVec.ofNat 32 (val b), w1 := BitVec.ofNat 32 (val b >>> 32)
                 w2 := BitVec.ofNat 32 (val b >>> 64), w3 := BitVec.ofNat 32 (val b >>> 96) }
        host := { s.host with pc := s.host.pc + 5 }, schedule := s.schedule.drop 5 } ∧
      (b.length ≤ 128 → ∀ w, (t.snapshot w).dinSeq = b ∧ (t.snapshot w).din.toNat < 2 ^ b.length))

/-- R76, the other pseudo-instructions. SETPOLY, DIVIDE, ENCODE and DECODE write their command word to CMD: a command is issued, or
dropped while one is pending. CLROVR clears CMD_OVR and changes nothing else. WAIT with its fresh label reads STATUS into t0, and leaves
its loop exactly when the BUSY it read is 0, whatever turns come between its two lines. -/
def Obligations.PseudoInstructionsDoWhatTheirExpansionsDo : Prop :=
  (∀ (s : State) (i : Instr) (w : Word), s.nextTurn = .host → AtLines s [lineCommand i] →
    (i, w) ∈ [(.setpoly, 0x00000001#32), (.divide, 0x00000002#32), (.encode, 0x00000003#32), (.decode, 0x00000004#32)] →
    (s.pending = none → step s = .next
      { s with
        pending := some (s.snapshot w)
        host := { s.host with pc := s.host.pc + 1 }, schedule := s.schedule.tail }) ∧
    (s.pending ≠ none → step s = .next
      { s with
        cmdOvr := true
        host := { s.host with pc := s.host.pc + 1 }, schedule := s.schedule.tail })) ∧
  (∀ s : State, s.nextTurn = .host → AtLines s [lineCLROVR] →
    step s = .next
      { s with
        cmdOvr := false
        host := { s.host with pc := s.host.pc + 1 }, schedule := s.schedule.tail }) ∧
  (∀ (s : State) (fresh : Nat), AtLines s (linesWAIT fresh) → findLabel s.host.program fresh = some s.host.pc →
    (s.nextTurn = .host →
      ∃ t, step s = .next t ∧ t = { s with host := t.host, schedule := s.schedule.tail } ∧
        t.host.program = s.host.program ∧ t.host.pc = s.host.pc + 1 ∧ (∀ k, k ≠ 0 → t.temp k = s.temp k) ∧
        (tempsWf s.host.temps = true → t.temp 0 = s.readReg .status ∧ (t.temp 0 &&& 0x1#32 = 0#32 ↔ s.pending = none))) ∧
    (∀ u : State, u.host.program = s.host.program → u.host.pc = s.host.pc + 1 → u.nextTurn = .host →
      step u = .next
        { u with
          host := { u.host with pc := if u.temp 0 &&& 0x1#32 = 0#32 then s.host.pc + 2 else s.host.pc }
          schedule := u.schedule.tail }) ∧
    (HostTurnsNext 2 s → tempsWf s.host.temps = true →
      ∃ t, core.run 2 s = .next t ∧ t = { s with host := t.host, schedule := s.schedule.drop 2 } ∧
        (t.host.pc = s.host.pc + 2 ↔ s.pending = none) ∧ (t.host.pc = s.host.pc ↔ s.pending ≠ none)))
end

