-- ==== Sys2Proof/Laws/Sequences.lean ====
section
/-! SUPPORT. The small lemmas of bit sequences and of the divider's steps (spec/00_scope.md R11, R12; spec/41_divider.md R121, R122). -/

namespace Sys2Proof.Laws

open Sys2Proof.Machine

@[simp] theorem zeros_length (n : Nat) : (zeros n).length = n := by simp [zeros]

@[simp] theorem zeros_zero : zeros 0 = [] := rfl

theorem zeros_succ (n : Nat) : zeros (n + 1) = false :: zeros n := rfl

@[simp] theorem val_nil : val [] = 0 := rfl

@[simp] theorem val_cons (b : Bool) (s : BitSeq) : val (b :: s) = b.toNat * 2 ^ s.length + val s := rfl

/-- A value is below 2 to the power of its length (R12). -/
theorem val_lt (s : BitSeq) : val s < 2 ^ s.length := by
  induction s with
  | nil => simp
  | cons b s ih =>
    simp only [val_cons, List.length_cons, Nat.pow_succ]
    cases b <;> simp <;> omega

@[simp] theorem val_zeros (n : Nat) : val (zeros n) = 0 := by
  induction n with
  | zero => rfl
  | succ n ih => simp [zeros_succ, ih]

/-- The value of a concatenation: the first part shifted by the length of the second. -/
theorem val_append (s t : BitSeq) : val (s ++ t) = val s * 2 ^ t.length + val t := by
  induction s with
  | nil => simp
  | cons b s ih => simp [ih, Nat.pow_add]; ring

@[simp] theorem seqOf_zero (v : Nat) : seqOf 0 v = [] := rfl

@[simp] theorem seqOf_succ (L v : Nat) : seqOf (L + 1) v = v.testBit L :: seqOf L v := rfl

@[simp] theorem seqOf_length (L v : Nat) : (seqOf L v).length = L := by
  induction L with
  | zero => rfl
  | succ L ih => simp [ih]

@[simp] theorem xorStep_nil (w : BitSeq) : xorStep [] w = w := by cases w <;> rfl

@[simp] theorem xorStep_cons (b x : Bool) (p w : BitSeq) : xorStep (b :: p) (x :: w) = (x ^^ b) :: xorStep p w := rfl

/-- Strip never lengthens a sequence. -/
theorem strip_length_le (w : BitSeq) : (strip w).length ≤ w.length := by
  simpa [strip] using (List.dropWhile_sublist (l := w) fun b => !b).length_le

@[simp] theorem strip_nil : strip [] = [] := rfl

@[simp] theorem strip_false (w : BitSeq) : strip (false :: w) = strip w := rfl

@[simp] theorem strip_true (w : BitSeq) : strip (true :: w) = true :: w := rfl

/-- One pass of the division loop (R120). -/
theorem divLoop_succ (n : Nat) (p w : BitSeq) :
    divLoop (n + 1) p w = if p.length ≤ w.length then divLoop n p (strip (xorStep p w)) else w := rfl

/-- A dividend shorter than the divisor is its own remainder, leading zeros included (R122). -/
theorem divLoop_of_short (n : Nat) (p w : BitSeq) (h : w.length < p.length) : divLoop n p w = w := by
  cases n with
  | zero => rfl
  | succ n => simp [divLoop_succ, Nat.not_le.mpr h]

/-- A stray bit is a value that does not fit the length (60_exceptions.md R202). -/
theorem strayBit_eq_false_iff {n : Nat} (v : BitVec n) (L : Nat) : strayBit v L = false ↔ v.toNat < 2 ^ L := by
  have hpos : 0 < 2 ^ L := Nat.two_pow_pos L
  have hshift : v >>> L = 0#n ↔ v.toNat < 2 ^ L := by
    rw [← BitVec.toNat_inj, BitVec.toNat_ushiftRight, Nat.shiftRight_eq_div_pow]
    simp [Nat.div_eq_zero_iff]
  unfold strayBit
  by_cases hL : L < n
  · simp [hL, hshift]
  · have : v.toNat < 2 ^ L := lt_of_lt_of_le v.isLt (Nat.pow_le_pow_right (by decide) (Nat.le_of_not_lt hL))
    simp [hL, this]

end Sys2Proof.Laws
end

