-- ==== Sys2Proof/Laws/State.lean ====
section
/-! SUPPORT. What each update of the state does to each field, so that no later proof unfolds a record update. -/

namespace Sys2Proof.Laws

open Sys2Proof.Machine

/-! ### A turn taken off the schedule -/

@[simp] theorem popTurn_params (s : State) : (s.popTurn).params = s.params := rfl
@[simp] theorem popTurn_polyLen (s : State) : (s.popTurn).polyLen = s.polyLen := rfl
@[simp] theorem popTurn_polyIn (s : State) : (s.popTurn).polyIn = s.polyIn := rfl
@[simp] theorem popTurn_polyHeldLen (s : State) : (s.popTurn).polyHeldLen = s.polyHeldLen := rfl
@[simp] theorem popTurn_polyHeld (s : State) : (s.popTurn).polyHeld = s.polyHeld := rfl
@[simp] theorem popTurn_dinLen (s : State) : (s.popTurn).dinLen = s.dinLen := rfl
@[simp] theorem popTurn_din (s : State) : (s.popTurn).din = s.din := rfl
@[simp] theorem popTurn_doutLen (s : State) : (s.popTurn).doutLen = s.doutLen := rfl
@[simp] theorem popTurn_dout (s : State) : (s.popTurn).dout = s.dout := rfl
@[simp] theorem popTurn_remRawLen (s : State) : (s.popTurn).remRawLen = s.remRawLen := rfl
@[simp] theorem popTurn_rem (s : State) : (s.popTurn).rem = s.rem := rfl
@[simp] theorem popTurn_quotLen (s : State) : (s.popTurn).quotLen = s.quotLen := rfl
@[simp] theorem popTurn_quot (s : State) : (s.popTurn).quot = s.quot := rfl
@[simp] theorem popTurn_errDetected (s : State) : (s.popTurn).errDetected = s.errDetected := rfl
@[simp] theorem popTurn_cmdOvr (s : State) : (s.popTurn).cmdOvr = s.cmdOvr := rfl
@[simp] theorem popTurn_errCode (s : State) : (s.popTurn).errCode = s.errCode := rfl
@[simp] theorem popTurn_pending (s : State) : (s.popTurn).pending = s.pending := rfl
@[simp] theorem popTurn_host (s : State) : (s.popTurn).host = s.host := rfl
@[simp] theorem popTurn_schedule (s : State) : (s.popTurn).schedule = s.schedule.tail := rfl

/-! ### The host goes on at a line -/

@[simp] theorem goto_params (s : State) (n : Nat) : (s.goto n).params = s.params := rfl
@[simp] theorem goto_polyLen (s : State) (n : Nat) : (s.goto n).polyLen = s.polyLen := rfl
@[simp] theorem goto_polyIn (s : State) (n : Nat) : (s.goto n).polyIn = s.polyIn := rfl
@[simp] theorem goto_polyHeldLen (s : State) (n : Nat) : (s.goto n).polyHeldLen = s.polyHeldLen := rfl
@[simp] theorem goto_polyHeld (s : State) (n : Nat) : (s.goto n).polyHeld = s.polyHeld := rfl
@[simp] theorem goto_dinLen (s : State) (n : Nat) : (s.goto n).dinLen = s.dinLen := rfl
@[simp] theorem goto_din (s : State) (n : Nat) : (s.goto n).din = s.din := rfl
@[simp] theorem goto_doutLen (s : State) (n : Nat) : (s.goto n).doutLen = s.doutLen := rfl
@[simp] theorem goto_dout (s : State) (n : Nat) : (s.goto n).dout = s.dout := rfl
@[simp] theorem goto_remRawLen (s : State) (n : Nat) : (s.goto n).remRawLen = s.remRawLen := rfl
@[simp] theorem goto_rem (s : State) (n : Nat) : (s.goto n).rem = s.rem := rfl
@[simp] theorem goto_quotLen (s : State) (n : Nat) : (s.goto n).quotLen = s.quotLen := rfl
@[simp] theorem goto_quot (s : State) (n : Nat) : (s.goto n).quot = s.quot := rfl
@[simp] theorem goto_errDetected (s : State) (n : Nat) : (s.goto n).errDetected = s.errDetected := rfl
@[simp] theorem goto_cmdOvr (s : State) (n : Nat) : (s.goto n).cmdOvr = s.cmdOvr := rfl
@[simp] theorem goto_errCode (s : State) (n : Nat) : (s.goto n).errCode = s.errCode := rfl
@[simp] theorem goto_pending (s : State) (n : Nat) : (s.goto n).pending = s.pending := rfl
@[simp] theorem goto_host (s : State) (n : Nat) : (s.goto n).host = { s.host with pc := n } := rfl
@[simp] theorem goto_schedule (s : State) (n : Nat) : (s.goto n).schedule = s.schedule := rfl

/-! ### The host goes on at its next line -/

@[simp] theorem nextLine_params (s : State) : (s.nextLine).params = s.params := rfl
@[simp] theorem nextLine_polyLen (s : State) : (s.nextLine).polyLen = s.polyLen := rfl
@[simp] theorem nextLine_polyIn (s : State) : (s.nextLine).polyIn = s.polyIn := rfl
@[simp] theorem nextLine_polyHeldLen (s : State) : (s.nextLine).polyHeldLen = s.polyHeldLen := rfl
@[simp] theorem nextLine_polyHeld (s : State) : (s.nextLine).polyHeld = s.polyHeld := rfl
@[simp] theorem nextLine_dinLen (s : State) : (s.nextLine).dinLen = s.dinLen := rfl
@[simp] theorem nextLine_din (s : State) : (s.nextLine).din = s.din := rfl
@[simp] theorem nextLine_doutLen (s : State) : (s.nextLine).doutLen = s.doutLen := rfl
@[simp] theorem nextLine_dout (s : State) : (s.nextLine).dout = s.dout := rfl
@[simp] theorem nextLine_remRawLen (s : State) : (s.nextLine).remRawLen = s.remRawLen := rfl
@[simp] theorem nextLine_rem (s : State) : (s.nextLine).rem = s.rem := rfl
@[simp] theorem nextLine_quotLen (s : State) : (s.nextLine).quotLen = s.quotLen := rfl
@[simp] theorem nextLine_quot (s : State) : (s.nextLine).quot = s.quot := rfl
@[simp] theorem nextLine_errDetected (s : State) : (s.nextLine).errDetected = s.errDetected := rfl
@[simp] theorem nextLine_cmdOvr (s : State) : (s.nextLine).cmdOvr = s.cmdOvr := rfl
@[simp] theorem nextLine_errCode (s : State) : (s.nextLine).errCode = s.errCode := rfl
@[simp] theorem nextLine_pending (s : State) : (s.nextLine).pending = s.pending := rfl
@[simp] theorem nextLine_host (s : State) : (s.nextLine).host = { s.host with pc := s.host.pc + 1 } := rfl
@[simp] theorem nextLine_schedule (s : State) : (s.nextLine).schedule = s.schedule := rfl

/-! ### A temporary of the host -/

@[simp] theorem setTemp_params (s : State) (n : Nat) (v : Word) : (s.setTemp n v).params = s.params := rfl
@[simp] theorem setTemp_polyLen (s : State) (n : Nat) (v : Word) : (s.setTemp n v).polyLen = s.polyLen := rfl
@[simp] theorem setTemp_polyIn (s : State) (n : Nat) (v : Word) : (s.setTemp n v).polyIn = s.polyIn := rfl
@[simp] theorem setTemp_polyHeldLen (s : State) (n : Nat) (v : Word) : (s.setTemp n v).polyHeldLen = s.polyHeldLen := rfl
@[simp] theorem setTemp_polyHeld (s : State) (n : Nat) (v : Word) : (s.setTemp n v).polyHeld = s.polyHeld := rfl
@[simp] theorem setTemp_dinLen (s : State) (n : Nat) (v : Word) : (s.setTemp n v).dinLen = s.dinLen := rfl
@[simp] theorem setTemp_din (s : State) (n : Nat) (v : Word) : (s.setTemp n v).din = s.din := rfl
@[simp] theorem setTemp_doutLen (s : State) (n : Nat) (v : Word) : (s.setTemp n v).doutLen = s.doutLen := rfl
@[simp] theorem setTemp_dout (s : State) (n : Nat) (v : Word) : (s.setTemp n v).dout = s.dout := rfl
@[simp] theorem setTemp_remRawLen (s : State) (n : Nat) (v : Word) : (s.setTemp n v).remRawLen = s.remRawLen := rfl
@[simp] theorem setTemp_rem (s : State) (n : Nat) (v : Word) : (s.setTemp n v).rem = s.rem := rfl
@[simp] theorem setTemp_quotLen (s : State) (n : Nat) (v : Word) : (s.setTemp n v).quotLen = s.quotLen := rfl
@[simp] theorem setTemp_quot (s : State) (n : Nat) (v : Word) : (s.setTemp n v).quot = s.quot := rfl
@[simp] theorem setTemp_errDetected (s : State) (n : Nat) (v : Word) : (s.setTemp n v).errDetected = s.errDetected := rfl
@[simp] theorem setTemp_cmdOvr (s : State) (n : Nat) (v : Word) : (s.setTemp n v).cmdOvr = s.cmdOvr := rfl
@[simp] theorem setTemp_errCode (s : State) (n : Nat) (v : Word) : (s.setTemp n v).errCode = s.errCode := rfl
@[simp] theorem setTemp_pending (s : State) (n : Nat) (v : Word) : (s.setTemp n v).pending = s.pending := rfl
@[simp] theorem setTemp_host (s : State) (n : Nat) (v : Word) : (s.setTemp n v).host = { s.host with temps := tempWrite s.host.temps n v } := rfl
@[simp] theorem setTemp_schedule (s : State) (n : Nat) (v : Word) : (s.setTemp n v).schedule = s.schedule := rfl

/-! ### A write to STATUS (10_state.md R30) -/

@[simp] theorem writeStatus_params (s : State) (v : Word) : (s.writeStatus v).params = s.params := rfl
@[simp] theorem writeStatus_polyLen (s : State) (v : Word) : (s.writeStatus v).polyLen = s.polyLen := rfl
@[simp] theorem writeStatus_polyIn (s : State) (v : Word) : (s.writeStatus v).polyIn = s.polyIn := rfl
@[simp] theorem writeStatus_polyHeldLen (s : State) (v : Word) : (s.writeStatus v).polyHeldLen = s.polyHeldLen := rfl
@[simp] theorem writeStatus_polyHeld (s : State) (v : Word) : (s.writeStatus v).polyHeld = s.polyHeld := rfl
@[simp] theorem writeStatus_dinLen (s : State) (v : Word) : (s.writeStatus v).dinLen = s.dinLen := rfl
@[simp] theorem writeStatus_din (s : State) (v : Word) : (s.writeStatus v).din = s.din := rfl
@[simp] theorem writeStatus_doutLen (s : State) (v : Word) : (s.writeStatus v).doutLen = s.doutLen := rfl
@[simp] theorem writeStatus_dout (s : State) (v : Word) : (s.writeStatus v).dout = s.dout := rfl
@[simp] theorem writeStatus_remRawLen (s : State) (v : Word) : (s.writeStatus v).remRawLen = s.remRawLen := rfl
@[simp] theorem writeStatus_rem (s : State) (v : Word) : (s.writeStatus v).rem = s.rem := rfl
@[simp] theorem writeStatus_quotLen (s : State) (v : Word) : (s.writeStatus v).quotLen = s.quotLen := rfl
@[simp] theorem writeStatus_quot (s : State) (v : Word) : (s.writeStatus v).quot = s.quot := rfl
@[simp] theorem writeStatus_errDetected (s : State) (v : Word) : (s.writeStatus v).errDetected = s.errDetected := rfl
@[simp] theorem writeStatus_cmdOvr (s : State) (v : Word) : (s.writeStatus v).cmdOvr = (s.cmdOvr && !v.getLsbD 3) := rfl
@[simp] theorem writeStatus_errCode (s : State) (v : Word) : (s.writeStatus v).errCode = s.errCode := rfl
@[simp] theorem writeStatus_pending (s : State) (v : Word) : (s.writeStatus v).pending = s.pending := rfl
@[simp] theorem writeStatus_host (s : State) (v : Word) : (s.writeStatus v).host = s.host := rfl
@[simp] theorem writeStatus_schedule (s : State) (v : Word) : (s.writeStatus v).schedule = s.schedule := rfl

/-! ### A command that fails (60_exceptions.md R200) -/

@[simp] theorem failCommand_params (s : State) (e : CommandError) : (s.failCommand e).params = s.params := rfl
@[simp] theorem failCommand_polyLen (s : State) (e : CommandError) : (s.failCommand e).polyLen = s.polyLen := rfl
@[simp] theorem failCommand_polyIn (s : State) (e : CommandError) : (s.failCommand e).polyIn = s.polyIn := rfl
@[simp] theorem failCommand_polyHeldLen (s : State) (e : CommandError) : (s.failCommand e).polyHeldLen = s.polyHeldLen := rfl
@[simp] theorem failCommand_polyHeld (s : State) (e : CommandError) : (s.failCommand e).polyHeld = s.polyHeld := rfl
@[simp] theorem failCommand_dinLen (s : State) (e : CommandError) : (s.failCommand e).dinLen = s.dinLen := rfl
@[simp] theorem failCommand_din (s : State) (e : CommandError) : (s.failCommand e).din = s.din := rfl
@[simp] theorem failCommand_doutLen (s : State) (e : CommandError) : (s.failCommand e).doutLen = s.doutLen := rfl
@[simp] theorem failCommand_dout (s : State) (e : CommandError) : (s.failCommand e).dout = s.dout := rfl
@[simp] theorem failCommand_remRawLen (s : State) (e : CommandError) : (s.failCommand e).remRawLen = s.remRawLen := rfl
@[simp] theorem failCommand_rem (s : State) (e : CommandError) : (s.failCommand e).rem = s.rem := rfl
@[simp] theorem failCommand_quotLen (s : State) (e : CommandError) : (s.failCommand e).quotLen = s.quotLen := rfl
@[simp] theorem failCommand_quot (s : State) (e : CommandError) : (s.failCommand e).quot = s.quot := rfl
@[simp] theorem failCommand_errDetected (s : State) (e : CommandError) : (s.failCommand e).errDetected = s.errDetected := rfl
@[simp] theorem failCommand_cmdOvr (s : State) (e : CommandError) : (s.failCommand e).cmdOvr = s.cmdOvr := rfl
@[simp] theorem failCommand_errCode (s : State) (e : CommandError) : (s.failCommand e).errCode = errorCode e := rfl
@[simp] theorem failCommand_pending (s : State) (e : CommandError) : (s.failCommand e).pending = none := rfl
@[simp] theorem failCommand_host (s : State) (e : CommandError) : (s.failCommand e).host = s.host := rfl
@[simp] theorem failCommand_schedule (s : State) (e : CommandError) : (s.failCommand e).schedule = s.schedule := rfl

/-! ### A command that succeeds (10_state.md R39) -/

@[simp] theorem finishCommand_params (s : State) (w : Writes) : (s.finishCommand w).params = s.params := rfl
@[simp] theorem finishCommand_polyLen (s : State) (w : Writes) : (s.finishCommand w).polyLen = s.polyLen := rfl
@[simp] theorem finishCommand_polyIn (s : State) (w : Writes) : (s.finishCommand w).polyIn = s.polyIn := rfl
@[simp] theorem finishCommand_polyHeldLen (s : State) (w : Writes) : (s.finishCommand w).polyHeldLen = (w.polyHeld.map Prod.fst).getD s.polyHeldLen := rfl
@[simp] theorem finishCommand_polyHeld (s : State) (w : Writes) : (s.finishCommand w).polyHeld = (w.polyHeld.map Prod.snd).getD s.polyHeld := rfl
@[simp] theorem finishCommand_dinLen (s : State) (w : Writes) : (s.finishCommand w).dinLen = s.dinLen := rfl
@[simp] theorem finishCommand_din (s : State) (w : Writes) : (s.finishCommand w).din = s.din := rfl
@[simp] theorem finishCommand_doutLen (s : State) (w : Writes) : (s.finishCommand w).doutLen = (w.dout.map Prod.fst).getD s.doutLen := rfl
@[simp] theorem finishCommand_dout (s : State) (w : Writes) : (s.finishCommand w).dout = (w.dout.map fun x => quadOf x.2).getD s.dout := rfl
@[simp] theorem finishCommand_remRawLen (s : State) (w : Writes) : (s.finishCommand w).remRawLen = (w.rem.map Prod.fst).getD s.remRawLen := rfl
@[simp] theorem finishCommand_rem (s : State) (w : Writes) : (s.finishCommand w).rem = (w.rem.map Prod.snd).getD s.rem := rfl
@[simp] theorem finishCommand_quotLen (s : State) (w : Writes) : (s.finishCommand w).quotLen = (w.quot.map Prod.fst).getD s.quotLen := rfl
@[simp] theorem finishCommand_quot (s : State) (w : Writes) : (s.finishCommand w).quot = (w.quot.map fun x => quadOf x.2).getD s.quot := rfl
@[simp] theorem finishCommand_errDetected (s : State) (w : Writes) : (s.finishCommand w).errDetected = w.errDetected.getD s.errDetected := rfl
@[simp] theorem finishCommand_cmdOvr (s : State) (w : Writes) : (s.finishCommand w).cmdOvr = s.cmdOvr := rfl
@[simp] theorem finishCommand_errCode (s : State) (w : Writes) : (s.finishCommand w).errCode = 0#4 := rfl
@[simp] theorem finishCommand_pending (s : State) (w : Writes) : (s.finishCommand w).pending = none := rfl
@[simp] theorem finishCommand_host (s : State) (w : Writes) : (s.finishCommand w).host = s.host := rfl
@[simp] theorem finishCommand_schedule (s : State) (w : Writes) : (s.finishCommand w).schedule = s.schedule := rfl

/-! ### Reset (70_reset_and_hazards.md R250) -/

@[simp] theorem resetBlock_params (s : State) : (s.resetBlock).params = s.params := rfl
@[simp] theorem resetBlock_polyLen (s : State) : (s.resetBlock).polyLen = 0#32 := rfl
@[simp] theorem resetBlock_polyIn (s : State) : (s.resetBlock).polyIn = 0#32 := rfl
@[simp] theorem resetBlock_polyHeldLen (s : State) : (s.resetBlock).polyHeldLen = 0#32 := rfl
@[simp] theorem resetBlock_polyHeld (s : State) : (s.resetBlock).polyHeld = 0#32 := rfl
@[simp] theorem resetBlock_dinLen (s : State) : (s.resetBlock).dinLen = 0#32 := rfl
@[simp] theorem resetBlock_din (s : State) : (s.resetBlock).din = Quad.zero := rfl
@[simp] theorem resetBlock_doutLen (s : State) : (s.resetBlock).doutLen = 0#32 := rfl
@[simp] theorem resetBlock_dout (s : State) : (s.resetBlock).dout = Quad.zero := rfl
@[simp] theorem resetBlock_remRawLen (s : State) : (s.resetBlock).remRawLen = 0#32 := rfl
@[simp] theorem resetBlock_rem (s : State) : (s.resetBlock).rem = 0#32 := rfl
@[simp] theorem resetBlock_quotLen (s : State) : (s.resetBlock).quotLen = 0#32 := rfl
@[simp] theorem resetBlock_quot (s : State) : (s.resetBlock).quot = Quad.zero := rfl
@[simp] theorem resetBlock_errDetected (s : State) : (s.resetBlock).errDetected = false := rfl
@[simp] theorem resetBlock_cmdOvr (s : State) : (s.resetBlock).cmdOvr = false := rfl
@[simp] theorem resetBlock_errCode (s : State) : (s.resetBlock).errCode = 0#4 := rfl
@[simp] theorem resetBlock_pending (s : State) : (s.resetBlock).pending = none := rfl
@[simp] theorem resetBlock_host (s : State) : (s.resetBlock).host = s.host := rfl
@[simp] theorem resetBlock_schedule (s : State) : (s.resetBlock).schedule = s.schedule := rfl

/-! ### A command word about to complete -/

@[simp] theorem withFetchWord_params (s : State) (nbits w : Nat) : (s.withFetchWord nbits w).params = s.params := rfl
@[simp] theorem withFetchWord_polyLen (s : State) (nbits w : Nat) : (s.withFetchWord nbits w).polyLen = s.polyLen := rfl
@[simp] theorem withFetchWord_polyIn (s : State) (nbits w : Nat) : (s.withFetchWord nbits w).polyIn = s.polyIn := rfl
@[simp] theorem withFetchWord_polyHeldLen (s : State) (nbits w : Nat) : (s.withFetchWord nbits w).polyHeldLen = s.polyHeldLen := rfl
@[simp] theorem withFetchWord_polyHeld (s : State) (nbits w : Nat) : (s.withFetchWord nbits w).polyHeld = s.polyHeld := rfl
@[simp] theorem withFetchWord_dinLen (s : State) (nbits w : Nat) : (s.withFetchWord nbits w).dinLen = s.dinLen := rfl
@[simp] theorem withFetchWord_din (s : State) (nbits w : Nat) : (s.withFetchWord nbits w).din = s.din := rfl
@[simp] theorem withFetchWord_doutLen (s : State) (nbits w : Nat) : (s.withFetchWord nbits w).doutLen = s.doutLen := rfl
@[simp] theorem withFetchWord_dout (s : State) (nbits w : Nat) : (s.withFetchWord nbits w).dout = s.dout := rfl
@[simp] theorem withFetchWord_remRawLen (s : State) (nbits w : Nat) : (s.withFetchWord nbits w).remRawLen = s.remRawLen := rfl
@[simp] theorem withFetchWord_rem (s : State) (nbits w : Nat) : (s.withFetchWord nbits w).rem = s.rem := rfl
@[simp] theorem withFetchWord_quotLen (s : State) (nbits w : Nat) : (s.withFetchWord nbits w).quotLen = s.quotLen := rfl
@[simp] theorem withFetchWord_quot (s : State) (nbits w : Nat) : (s.withFetchWord nbits w).quot = s.quot := rfl
@[simp] theorem withFetchWord_errDetected (s : State) (nbits w : Nat) : (s.withFetchWord nbits w).errDetected = s.errDetected := rfl
@[simp] theorem withFetchWord_cmdOvr (s : State) (nbits w : Nat) : (s.withFetchWord nbits w).cmdOvr = s.cmdOvr := rfl
@[simp] theorem withFetchWord_errCode (s : State) (nbits w : Nat) : (s.withFetchWord nbits w).errCode = s.errCode := rfl
@[simp] theorem withFetchWord_pending (s : State) (nbits w : Nat) : (s.withFetchWord nbits w).pending = some (s.snapshot (tableWord nbits w)) := rfl
@[simp] theorem withFetchWord_host (s : State) (nbits w : Nat) : (s.withFetchWord nbits w).host = s.host := rfl
@[simp] theorem withFetchWord_schedule (s : State) (nbits w : Nat) : (s.withFetchWord nbits w).schedule = .engine :: s.schedule := rfl

/-! ### The issue of a command (10_state.md R40) -/

@[simp] theorem issue_params (s : State) (v : Word) : (s.issue v).params = s.params := by
  unfold State.issue; split <;> rfl
@[simp] theorem issue_polyLen (s : State) (v : Word) : (s.issue v).polyLen = s.polyLen := by
  unfold State.issue; split <;> rfl
@[simp] theorem issue_polyIn (s : State) (v : Word) : (s.issue v).polyIn = s.polyIn := by
  unfold State.issue; split <;> rfl
@[simp] theorem issue_polyHeldLen (s : State) (v : Word) : (s.issue v).polyHeldLen = s.polyHeldLen := by
  unfold State.issue; split <;> rfl
@[simp] theorem issue_polyHeld (s : State) (v : Word) : (s.issue v).polyHeld = s.polyHeld := by
  unfold State.issue; split <;> rfl
@[simp] theorem issue_dinLen (s : State) (v : Word) : (s.issue v).dinLen = s.dinLen := by
  unfold State.issue; split <;> rfl
@[simp] theorem issue_din (s : State) (v : Word) : (s.issue v).din = s.din := by
  unfold State.issue; split <;> rfl
@[simp] theorem issue_doutLen (s : State) (v : Word) : (s.issue v).doutLen = s.doutLen := by
  unfold State.issue; split <;> rfl
@[simp] theorem issue_dout (s : State) (v : Word) : (s.issue v).dout = s.dout := by
  unfold State.issue; split <;> rfl
@[simp] theorem issue_remRawLen (s : State) (v : Word) : (s.issue v).remRawLen = s.remRawLen := by
  unfold State.issue; split <;> rfl
@[simp] theorem issue_rem (s : State) (v : Word) : (s.issue v).rem = s.rem := by
  unfold State.issue; split <;> rfl
@[simp] theorem issue_quotLen (s : State) (v : Word) : (s.issue v).quotLen = s.quotLen := by
  unfold State.issue; split <;> rfl
@[simp] theorem issue_quot (s : State) (v : Word) : (s.issue v).quot = s.quot := by
  unfold State.issue; split <;> rfl
@[simp] theorem issue_errDetected (s : State) (v : Word) : (s.issue v).errDetected = s.errDetected := by
  unfold State.issue; split <;> rfl
@[simp] theorem issue_errCode (s : State) (v : Word) : (s.issue v).errCode = s.errCode := by
  unfold State.issue; split <;> rfl
@[simp] theorem issue_host (s : State) (v : Word) : (s.issue v).host = s.host := by
  unfold State.issue; split <;> rfl
@[simp] theorem issue_schedule (s : State) (v : Word) : (s.issue v).schedule = s.schedule := by
  unfold State.issue; split <;> rfl

/-- A CMD write while no command is pending copies the snapshot. -/
theorem issue_of_none (s : State) (v : Word) (h : s.pending = none) :
    s.issue v = { s with pending := some (s.snapshot v) } := by
  simp [State.issue, h]

/-- A CMD write while a command is pending sets CMD_OVR only. -/
theorem issue_of_some (s : State) (v : Word) (snap : Snapshot) (h : s.pending = some snap) :
    s.issue v = { s with cmdOvr := true } := by
  simp [State.issue, h]

/-! ### The snapshot (10_state.md R39) -/

@[simp] theorem snapshot_word (s : State) (v : Word) : (s.snapshot v).word = v := rfl
@[simp] theorem snapshot_polyLen (s : State) (v : Word) : (s.snapshot v).polyLen = s.polyLen := rfl
@[simp] theorem snapshot_polyIn (s : State) (v : Word) : (s.snapshot v).polyIn = s.polyIn := rfl
@[simp] theorem snapshot_heldLen (s : State) (v : Word) : (s.snapshot v).heldLen = s.polyHeldLen := rfl
@[simp] theorem snapshot_held (s : State) (v : Word) : (s.snapshot v).held = s.polyHeld := rfl
@[simp] theorem snapshot_dinLen (s : State) (v : Word) : (s.snapshot v).dinLen = s.dinLen := rfl
@[simp] theorem snapshot_din (s : State) (v : Word) : (s.snapshot v).din = quadValue s.din := rfl

end Sys2Proof.Laws
end

