-- ==== Sys2Proof/Laws/Ops.lean ====
section
/-! SUPPORT. One lemma for each shared operation that says once what it can do (spec/10_state.md R39, spec/20_memory.md R50 to R55). -/

namespace Sys2Proof.Laws

open Sys2Proof.Machine

/-! ### Four-word registers (20_memory.md R55) -/

@[simp] theorem quadValue_quadOf (v : Wide) : quadValue (quadOf v) = v := by
  apply BitVec.eq_of_getLsbD_eq
  intro i hi
  simp only [quadValue, quadOf, BitVec.getLsbD_append, BitVec.getLsbD_extractLsb']
  by_cases h0 : i < 32
  · simp [h0]
  · by_cases h1 : i < 64
    · have : i - 32 < 32 := by omega
      simp [h0, this, show 32 + (i - 32) = i by omega]
    · by_cases h2 : i < 96
      · have a : ¬ i - 32 < 32 := by omega
        have b : i - 32 - 32 < 32 := by omega
        simp [h0, a, b, show 64 + (i - 32 - 32) = i by omega]
      · have a : ¬ i - 32 < 32 := by omega
        have b : ¬ i - 32 - 32 < 32 := by omega
        have c : i - 32 - 32 - 32 < 32 := by omega
        simp [h0, a, b, c, show 96 + (i - 32 - 32 - 32) = i by omega]

theorem quadOf_w0 (v : Wide) : (quadOf v).w0 = v.extractLsb' 0 32 := rfl
theorem quadOf_w1 (v : Wide) : (quadOf v).w1 = v.extractLsb' 32 32 := rfl
theorem quadOf_w2 (v : Wide) : (quadOf v).w2 = v.extractLsb' 64 32 := rfl
theorem quadOf_w3 (v : Wide) : (quadOf v).w3 = v.extractLsb' 96 32 := rfl

@[simp] theorem quadOf_quadValue (q : Quad) : quadOf (quadValue q) = q := by
  have word (k : Nat) (w : Word) (h : ∀ i, i < 32 → (quadValue q).getLsbD (k + i) = w.getLsbD i) :
      (quadValue q).extractLsb' k 32 = w := by
    apply BitVec.eq_of_getLsbD_eq
    intro i hi
    rw [BitVec.getLsbD_extractLsb', h i hi]
    simp [hi]
  have h0 : (quadValue q).extractLsb' 0 32 = q.w0 := by
    refine word 0 q.w0 fun i hi => ?_
    simp only [quadValue, BitVec.getLsbD_append]
    simp [hi]
  have h1 : (quadValue q).extractLsb' 32 32 = q.w1 := by
    refine word 32 q.w1 fun i hi => ?_
    simp only [quadValue, BitVec.getLsbD_append]
    simp [hi]
  have h2 : (quadValue q).extractLsb' 64 32 = q.w2 := by
    refine word 64 q.w2 fun i hi => ?_
    simp only [quadValue, BitVec.getLsbD_append]
    simp [show ¬ 64 + i < 32 by omega, show ¬ 64 + i - 32 < 32 by omega, show 64 + i - 32 - 32 = i by omega, hi]
  have h3 : (quadValue q).extractLsb' 96 32 = q.w3 := by
    refine word 96 q.w3 fun i hi => ?_
    simp only [quadValue, BitVec.getLsbD_append]
    simp [show ¬ 96 + i < 32 by omega, show ¬ 96 + i - 32 < 32 by omega, show ¬ 96 + i - 32 - 32 < 32 by omega,
      show 96 + i - 32 - 32 - 32 = i by omega]
  simp [quadOf, h0, h1, h2, h3]

/-! ### The window -/

/-- The offset of a register names that register (10_state.md R21). -/
@[simp] theorem regAt_offset (r : Reg) : regAt r.offset = some r := by cases r <;> decide

/-- Only a register's own offset names it. -/
theorem regAt_eq_some (off : Nat) (r : Reg) (h : regAt off = some r) : r.offset = off := by
  simpa using List.find?_some h

/-- Every register stands at a multiple of 4 inside the window. -/
theorem offset_bounds (r : Reg) : r.offset % 4 = 0 ∧ r.offset < windowBytes := by cases r <;> decide

/-- An access reaches a register exactly when it is a 32-bit access at that register's offset (20_memory.md R51, R52). -/
theorem accessTarget_ok (off size : Nat) (r : Reg) : accessTarget off size = .ok r ↔ size = 4 ∧ off = r.offset := by
  constructor
  · intro h
    unfold accessTarget at h
    split at h
    · cases h
    · split at h
      · cases h
      · rename_i h4 _
        split at h
        · rename_i r' hr
          cases h
          exact ⟨by omega, (regAt_eq_some off r hr).symm⟩
        · split at h <;> cases h
  · rintro ⟨rfl, rfl⟩
    simp [accessTarget, (offset_bounds r).1]

@[simp] theorem accessTarget_offset (r : Reg) : accessTarget r.offset 4 = .ok r := (accessTarget_ok _ _ _).mpr ⟨rfl, rfl⟩

@[simp] theorem memRead_offset (s : State) (r : Reg) : s.memRead r.offset 4 = .ok (s.readReg r) := by
  simp [State.memRead]

/-- A read that succeeds is a 32-bit read of a register. -/
theorem memRead_ok (s : State) (off size : Nat) (v : Word) (h : s.memRead off size = .ok v) :
    ∃ r : Reg, size = 4 ∧ off = r.offset ∧ v = s.readReg r := by
  unfold State.memRead at h
  split at h
  · rename_i r hr
    cases h
    exact ⟨r, ((accessTarget_ok _ _ _).mp hr).1, ((accessTarget_ok _ _ _).mp hr).2, rfl⟩
  · cases h

/-- A write that succeeds is a 32-bit write of a register that admits it. -/
theorem memWrite_ok (s t : State) (off size : Nat) (v : Word) (h : s.memWrite off size v = .ok t) :
    ∃ r : Reg, size = 4 ∧ off = r.offset ∧ s.writeReg r v = some t := by
  unfold State.memWrite at h
  split at h
  · cases h
  · rename_i r hr
    split at h
    · rename_i t' hw
      cases h
      exact ⟨r, ((accessTarget_ok _ _ _).mp hr).1, ((accessTarget_ok _ _ _).mp hr).2, hw⟩
    · cases h

/-- A write to the offset of a register that admits it. -/
theorem memWrite_of_some (s t : State) (r : Reg) (v : Word) (h : s.writeReg r v = some t) :
    s.memWrite r.offset 4 v = .ok t := by
  simp [State.memWrite, h]

/-- A write to the offset of a read-only register (20_memory.md R53). -/
theorem memWrite_of_none (s : State) (r : Reg) (v : Word) (h : s.writeReg r v = none) :
    s.memWrite r.offset 4 v = .error .readOnly := by
  simp [State.memWrite, h]

/-- What a host write to a register can do: issue a command, clear CMD_OVR, or store one input register. -/
theorem writeReg_some (s t : State) (r : Reg) (v : Word) (h : s.writeReg r v = some t) :
    (r = .cmd ∧ t = s.issue v) ∨ (r = .status ∧ t = s.writeStatus v) ∨
    (r = .polyLen ∧ t = { s with polyLen := v }) ∨ (r = .polyIn ∧ t = { s with polyIn := v }) ∨
    (r = .dinLen ∧ t = { s with dinLen := v }) ∨
    (r = .din0 ∧ t = { s with din := { s.din with w0 := v } }) ∨
    (r = .din1 ∧ t = { s with din := { s.din with w1 := v } }) ∨
    (r = .din2 ∧ t = { s with din := { s.din with w2 := v } }) ∨
    (r = .din3 ∧ t = { s with din := { s.din with w3 := v } }) := by
  cases r <;> simp [State.writeReg] at h <;> simp [h]

/-- An access at `BASE + off` inside the window reaches offset `off` (R50). -/
theorem windowOffset_base (p : Params) (off : Nat) (h : off < windowBytes) : windowOffset p (p.base + off) = some off := by
  simp [windowOffset, h]

/-- An address reaches at most the offset it is at. -/
theorem windowOffset_some (p : Params) (addr off : Nat) (h : windowOffset p addr = some off) :
    addr = p.base + off ∧ off < windowBytes := by
  unfold windowOffset at h
  split at h
  · simp at h; omega
  · cases h

@[simp] theorem platformRead_offset (s : State) (r : Reg) :
    s.platformRead (s.params.base + r.offset) 4 = .ok (s.readReg r) := by
  simp [State.platformRead, windowOffset_base _ _ (offset_bounds r).2]

/-- An access at `BASE + off` is the access at window offset `off`, for a write. -/
theorem platformWrite_base (s : State) (off size : Nat) (v : Word) (h : off < windowBytes) :
    s.platformWrite (s.params.base + off) size v = s.memWrite off size v := by
  simp [State.platformWrite, windowOffset_base _ _ h]

/-- A platform read that succeeds is a 32-bit read of a register of the window. -/
theorem platformRead_ok (s : State) (addr size : Nat) (v : Word) (h : s.platformRead addr size = .ok v) :
    ∃ r : Reg, size = 4 ∧ addr = s.params.base + r.offset ∧ v = s.readReg r := by
  unfold State.platformRead at h
  split at h
  · rename_i off ho
    obtain ⟨r, rfl, rfl, rfl⟩ := memRead_ok s off size v h
    exact ⟨r, rfl, (windowOffset_some _ _ _ ho).1, rfl⟩
  · cases h

/-- A platform write that succeeds is a 32-bit write of a register of the window that admits it. -/
theorem platformWrite_ok (s t : State) (addr size : Nat) (v : Word) (h : s.platformWrite addr size v = .ok t) :
    ∃ r : Reg, size = 4 ∧ addr = s.params.base + r.offset ∧ s.writeReg r v = some t := by
  unfold State.platformWrite at h
  split at h
  · rename_i off ho
    obtain ⟨r, rfl, rfl, hw⟩ := memWrite_ok s t off size v h
    exact ⟨r, rfl, (windowOffset_some _ _ _ ho).1, hw⟩
  · cases h

/-! ### Complete (10_state.md R39) -/

theorem complete_of_none (s : State) (run : Params → Snapshot → Except CommandError Writes) (h : s.pending = none) :
    s.complete run = s := by
  simp [State.complete, h]

theorem complete_of_error (s : State) (run : Params → Snapshot → Except CommandError Writes) (snap : Snapshot)
    (e : CommandError) (h : s.pending = some snap) (hr : run s.params snap = .error e) :
    s.complete run = s.failCommand e := by
  simp [State.complete, h, hr]

theorem complete_of_ok (s : State) (run : Params → Snapshot → Except CommandError Writes) (snap : Snapshot) (w : Writes)
    (h : s.pending = some snap) (hr : run s.params snap = .ok w) : s.complete run = s.finishCommand w := by
  simp [State.complete, h, hr]

/-- What a Complete step can do: nothing where no command is pending, a failure with one error, or a success with the command's
writes. -/
theorem complete_cases (s : State) (run : Params → Snapshot → Except CommandError Writes) :
    (s.pending = none ∧ s.complete run = s) ∨
    (∃ snap e, s.pending = some snap ∧ run s.params snap = .error e ∧ s.complete run = s.failCommand e) ∨
    (∃ snap w, s.pending = some snap ∧ run s.params snap = .ok w ∧ s.complete run = s.finishCommand w) := by
  cases h : s.pending with
  | none => exact .inl ⟨rfl, complete_of_none s run h⟩
  | some snap =>
    cases hr : run s.params snap with
    | error e => exact .inr (.inl ⟨snap, e, rfl, hr, complete_of_error s run snap e h hr⟩)
    | ok w => exact .inr (.inr ⟨snap, w, rfl, hr, complete_of_ok s run snap w h hr⟩)

/-- What `SeqOperands` answers when it answers operands (41_divider.md R131). -/
theorem seqOperands_ok (p : Params) (snap : Snapshot) (d g : BitSeq) (h : seqOperands p snap = .ok (d, g)) :
    snap.dinLen.toNat ≤ p.wMax ∧ snap.din.toNat < 2 ^ snap.dinLen.toNat ∧ snap.heldLen ≠ 0#32 ∧
      d = snap.dinSeq ∧ g = snap.heldSeq := by
  unfold seqOperands at h
  split at h
  · cases h
  · split at h
    · cases h
    · split at h
      · cases h
      · rename_i h1 h2 h3
        cases h
        exact ⟨by omega, (strayBit_eq_false_iff _ _).mp (by simpa using h2), h3, rfl, rfl⟩

/-! ### The host's temporaries -/

theorem tempRead_tempWrite_same (ts : List (Nat × Word)) (lo : Option Nat) (h : tempsFrom lo ts = true) (n : Nat) (v : Word) :
    tempRead (tempWrite ts n v) n = v := by
  induction ts generalizing lo with
  | nil => by_cases hv : v = 0#32 <;> simp [tempWrite, tempRead, hv]
  | cons kv ts ih =>
    obtain ⟨k, w⟩ := kv
    simp only [tempsFrom, Bool.and_eq_true] at h
    have above : ∀ (ts : List (Nat × Word)) (m : Nat), n ≤ m → tempsFrom (some m) ts = true → tempRead ts n = 0#32 := by
      intro ts
      induction ts with
      | nil => intros; rfl
      | cons kv ts ih2 =>
        intro m hm h2
        obtain ⟨k2, w2⟩ := kv
        simp [tempsFrom] at h2
        simp [tempRead, show ¬ k2 = n by omega, ih2 k2 (by omega) h2.2]
    unfold tempWrite
    split
    · rename_i hk
      simp [tempRead, show ¬ k = n by omega, ih (some k) h.2]
    · split
      · rename_i hk
        subst hk
        by_cases hv : v = 0#32
        · simp [hv, above ts k (Nat.le_refl _) h.2]
        · simp [hv, tempRead]
      · by_cases hv : v = 0#32
        · simp [hv, tempRead, show ¬ k = n by omega, above ts k (by omega) h.2]
        · simp [hv, tempRead]

theorem tempRead_tempWrite_other (ts : List (Nat × Word)) (n m : Nat) (v : Word) (hnm : m ≠ n) :
    tempRead (tempWrite ts n v) m = tempRead ts m := by
  induction ts with
  | nil => by_cases hv : v = 0#32 <;> simp [tempWrite, tempRead, hv, Ne.symm hnm]
  | cons kv ts ih =>
    obtain ⟨k, w⟩ := kv
    unfold tempWrite
    split
    · simp [tempRead, ih]
    · split
      · rename_i hk
        subst hk
        by_cases hv : v = 0#32 <;> simp [hv, tempRead, Ne.symm hnm]
      · by_cases hv : v = 0#32 <;> simp [hv, tempRead, Ne.symm hnm]

theorem tempsFrom_tempWrite (ts : List (Nat × Word)) (lo : Option Nat) (h : tempsFrom lo ts = true) (n : Nat) (v : Word)
    (hlo : lo.all (fun l => decide (l < n)) = true) : tempsFrom lo (tempWrite ts n v) = true := by
  induction ts generalizing lo with
  | nil => by_cases hv : v = 0#32 <;> simp [tempWrite, tempsFrom, hv, hlo]
  | cons kv ts ih =>
    obtain ⟨k, w⟩ := kv
    simp only [tempsFrom, Bool.and_eq_true] at h
    unfold tempWrite
    split
    · rename_i hk
      simp only [tempsFrom, Bool.and_eq_true]
      exact ⟨h.1, ih (some k) h.2 (by simpa using hk)⟩
    · split
      · rename_i hk
        subst hk
        by_cases hv : v = 0#32
        · simp only [hv, if_true]
          cases ts with
          | nil => rfl
          | cons kv2 ts2 =>
            obtain ⟨k2, w2⟩ := kv2
            simp only [tempsFrom, Bool.and_eq_true] at h ⊢
            refine ⟨⟨?_, h.2.1.2⟩, h.2.2⟩
            have h1 := h.1.1
            have h2 := h.2.1.1
            cases lo with
            | none => rfl
            | some l => simp at h1 h2 ⊢; omega
        · simp [hv, tempsFrom, hlo, h.2]
      · by_cases hv : v = 0#32
        · simp only [hv, if_true, tempsFrom, Bool.and_eq_true]; exact h
        · have : n < k := by omega
          simp only [hv, if_false, tempsFrom, Bool.and_eq_true]
          refine ⟨⟨hlo, by simpa using hv⟩, ⟨⟨by simpa using this, h.1.2⟩, h.2⟩⟩

/-- Writing a temporary keeps the canonical form. -/
theorem tempsWf_tempWrite (ts : List (Nat × Word)) (h : tempsWf ts = true) (n : Nat) (v : Word) :
    tempsWf (tempWrite ts n v) = true := tempsFrom_tempWrite ts none h n v rfl

/-! ### Turns -/

theorem nextTurn_cons (s : State) (t : Turn) (ts : List Turn) (h : s.schedule = t :: ts) : s.nextTurn = t := by
  simp [State.nextTurn, h]

theorem nextTurn_nil_busy (s : State) (snap : Snapshot) (h : s.schedule = []) (hp : s.pending = some snap) :
    s.nextTurn = .engine := by
  simp [State.nextTurn, h, State.busy, hp]

theorem nextTurn_nil_idle (s : State) (h : s.schedule = []) (hp : s.pending = none) : s.nextTurn = .host := by
  simp [State.nextTurn, h, State.busy, hp]

end Sys2Proof.Laws
end

