-- ==== Sys2Proof/Laws/PerInstr.lean ====
section
/-! SUPPORT. Per-instruction facts about the command words (spec/30_encoding.md R70, R72). -/

namespace Sys2Proof.Laws

/-- The instruction is well-formed, and its word is a legal one with the reserved field 0 and the instruction's OP value. -/
def WordFields.Statement (i : Instr) : Prop :=
  i.wf = true ∧ legalWord (encode i) = true ∧ rsvdField (encode i) = 0#28 ∧ opField (encode i) = opOf i

theorem WordFields.setpoly : WordFields.Statement .setpoly := by unfold WordFields.Statement; decide

theorem WordFields.divide : WordFields.Statement .divide := by unfold WordFields.Statement; decide

theorem WordFields.encode : WordFields.Statement .encode := by unfold WordFields.Statement; decide

theorem WordFields.decode : WordFields.Statement .decode := by unfold WordFields.Statement; decide

end Sys2Proof.Laws
end

