-- ==== Sys2Proof/Laws/Step.lean ====
section
/-! SUPPORT. What one step can do: one inversion lemma for a host turn, an engine turn and a step (spec/00_scope.md R10,
spec/20_memory.md R59). -/

namespace Sys2Proof.Laws

open Sys2Proof.Machine

/-- What a host turn can do: nothing at the end of the program, a register write, a register read into a temporary, a change
of a temporary, or a move to a line; the block changes in the second case only (30_encoding.md R75). -/
theorem hostTurn_cases (s t : State) (h : s.hostTurn = .next t) :
    (s.host.program[s.host.pc]? = none ∧ t = s) ∨
    (∃ (r : Reg) (v : Word) (u : State), HostWrites s r.offset v ∧ s.writeReg r v = some u ∧ t = u.nextLine) ∨
    (∃ (r : Reg) (n : Nat), t = (s.setTemp n (s.readReg r)).nextLine) ∨
    (∃ (n : Nat) (v : Word), t = (s.setTemp n v).nextLine) ∨
    (∃ n : Nat, t = s.goto n) := by
  unfold State.hostTurn at h
  cases hl : s.host.program[s.host.pc]? with
  | none => simp [hl] at h; exact .inl ⟨rfl, h.symm⟩
  | some l =>
    simp only [hl] at h
    have write (addr size : Nat) (v : Word) (hw : afterWrite (s.platformWrite addr size v) = .next t)
        (hh : ∀ off, addr = s.params.base + off → size = 4 → HostWrites s off v) :
        ∃ (r : Reg) (v : Word) (u : State), HostWrites s r.offset v ∧ s.writeReg r v = some u ∧ t = u.nextLine := by
      cases hp : s.platformWrite addr size v with
      | error c => simp [afterWrite, hp] at hw
      | ok u =>
        obtain ⟨r, h4, ha, hr⟩ := platformWrite_ok s u addr size v hp
        simp [afterWrite, hp] at hw
        exact ⟨r, v, u, hh _ ha h4, hr, hw.symm⟩
    have read (addr size n : Nat) (hw : s.afterRead n (s.platformRead addr size) = .next t) :
        ∃ (r : Reg) (n : Nat), t = (s.setTemp n (s.readReg r)).nextLine := by
      cases hp : s.platformRead addr size with
      | error c => simp [State.afterRead, hp] at hw
      | ok v =>
        obtain ⟨r, -, -, rfl⟩ := platformRead_ok s addr size v hp
        simp [State.afterRead, hp] at hw
        exact ⟨r, n, hw.symm⟩
    cases ho : l.op with
    | wr off v =>
      rw [ho] at h
      refine .inr (.inl (write _ _ _ h fun off' ha _ => ⟨l, hl, .inl ?_⟩))
      rw [ho, Nat.add_left_cancel ha]
    | rd off n => rw [ho] at h; exact .inr (.inr (.inl (read _ _ _ h)))
    | bnz n mask label =>
      simp only [ho, State.hostOp] at h
      split at h
      · simp at h; exact .inr (.inr (.inr (.inr ⟨s.host.pc + 1, h.symm⟩)))
      · split at h
        · simp at h; exact .inr (.inr (.inr (.inr ⟨_, h.symm⟩)))
        · cases h
    | xori n v =>
      simp [ho, State.hostOp] at h
      exact .inr (.inr (.inr (.inl ⟨n, _, h.symm⟩)))
    | wrt off n =>
      rw [ho] at h
      refine .inr (.inl (write _ _ _ h fun off' ha _ => ⟨l, hl, .inr (.inl ⟨n, ?_, rfl⟩)⟩))
      rw [ho, Nat.add_left_cancel ha]
    | comment =>
      simp [ho, State.hostOp] at h
      exact .inr (.inr (.inr (.inr ⟨s.host.pc + 1, h.symm⟩)))
    | writeAt addr size v =>
      rw [ho] at h
      refine .inr (.inl (write _ _ _ h fun off' ha h4 => ⟨l, hl, .inr (.inr ?_)⟩))
      rw [ho, ha, h4]
    | readAt addr size n => rw [ho] at h; exact .inr (.inr (.inl (read _ _ _ h)))

/-- In the host's turn, a step is the line the host is at (30_encoding.md R75). -/
theorem step_of_line (s : State) (l : HostLine) (hn : s.nextTurn = .host) (hl : s.host.program[s.host.pc]? = some l) :
    step s = s.popTurn.hostOp l.op := by
  have h : s.popTurn.host.program[s.popTurn.host.pc]? = some l := hl
  simp only [step, hn, State.hostTurn, h]

/-- A line that writes a register which takes the write. -/
theorem hostOp_wr (s t : State) (r : Reg) (v : Word) (h : s.writeReg r v = some t) :
    s.hostOp (.wr r.offset v) = .next t.nextLine := by
  simp [State.hostOp, platformWrite_base s _ _ _ (offset_bounds r).2, memWrite_of_some s t r v h, afterWrite]

/-- A line that reads a register. -/
theorem hostOp_rd (s : State) (r : Reg) (n : Nat) :
    s.hostOp (.rd r.offset n) = .next (s.setTemp n (s.readReg r)).nextLine := by
  simp [State.hostOp, State.afterRead]

/-- The first of the lines the host is at. -/
theorem atLines_head (s : State) (l : HostLine) (ls : List HostLine) (h : AtLines s (l :: ls)) :
    s.host.program[s.host.pc]? = some l := h 0 (Nat.succ_pos _)

/-- After the first of the lines the host is at the others. -/
theorem atLines_tail (s t : State) (l : HostLine) (ls : List HostLine) (h : AtLines s (l :: ls))
    (hp : t.host.program = s.host.program) (hpc : t.host.pc = s.host.pc + 1) : AtLines t ls := by
  intro i hi
  have := h (i + 1) (Nat.succ_lt_succ hi)
  rw [hp, hpc, Nat.add_assoc, Nat.add_comm 1 i]
  simpa using this

/-- Where host turns come next, the next turn is the host's. -/
theorem hostTurnsNext_nextTurn (n : Nat) (s : State) (h : HostTurnsNext (n + 1) s) : s.nextTurn = .host := by
  rcases h with ⟨rest, h⟩ | ⟨hp, k, -, h⟩
  · exact nextTurn_cons s .host _ (by rw [h, List.replicate_succ, List.cons_append])
  · cases k with
    | zero => exact nextTurn_nil_idle s h hp
    | succ k => exact nextTurn_cons s .host _ (by rw [h, List.replicate_succ])

/-- After one of them, one fewer comes, if no command was issued. -/
theorem hostTurnsNext_tail (n : Nat) (s t : State) (h : HostTurnsNext (n + 1) s) (hs : t.schedule = s.schedule.tail)
    (hp : t.pending = s.pending) : HostTurnsNext n t := by
  rcases h with ⟨rest, h⟩ | ⟨h0, k, hk, h⟩
  · exact .inl ⟨rest, by rw [hs, h, List.replicate_succ, List.cons_append, List.tail_cons]⟩
  · refine .inr ⟨hp.trans h0, k - 1, by omega, ?_⟩
    rw [hs, h]
    simp

/-- Every command answers a next state, whatever the state: a command error is no trap (60_exceptions.md R200). -/
theorem exec_next (i : Instr) (s : State) :
    exec i s = .next (s.complete (match i with
      | .setpoly => setPoly | .divide => divideCommand | .encode => encodeCommand | .decode => decodeCommand)) := by
  cases i <;> rfl

/-- What an engine turn can do: nothing without a pending command, the decoded command, or IllegalCommand. -/
theorem engineTurn_cases (s t : State) (h : engineTurn s = .next t) :
    (s.pending = none ∧ t = s) ∨
    (∃ snap i, s.pending = some snap ∧ decode snap.word = .command i ∧ exec i s = .next t) ∨
    (∃ snap why, s.pending = some snap ∧ decode snap.word = .illegal why ∧ t = s.failCommand .illegalCommand) := by
  unfold engineTurn at h
  cases hp : s.pending with
  | none => simp [hp] at h; exact .inl ⟨rfl, h.symm⟩
  | some snap =>
    simp only [hp] at h
    cases hd : decode snap.word with
    | command i => rw [hd] at h; exact .inr (.inl ⟨snap, i, rfl, hd, h⟩)
    | illegal why => simp [hd] at h; exact .inr (.inr ⟨snap, why, rfl, hd, h.symm⟩)

/-- A step is the turn of the agent that moves next. -/
theorem step_cases (s t : State) (h : step s = .next t) :
    (s.nextTurn = .host ∧ s.popTurn.hostTurn = .next t) ∨
    (s.nextTurn = .engine ∧ engineTurn s.popTurn = .next t) ∨
    (s.nextTurn = .reset ∧ t = s.popTurn.resetBlock) := by
  unfold step at h
  cases hn : s.nextTurn with
  | host => rw [hn] at h; exact .inl ⟨rfl, h⟩
  | engine => rw [hn] at h; exact .inr (.inl ⟨rfl, h⟩)
  | reset => simp [hn] at h; exact .inr (.inr ⟨rfl, h.symm⟩)

/-! ### Runs

`core.run` is a function of `core.State`, which unfolds to `State`: these lemmas pass from the one to the other. -/

theorem core_run_of_next (M : Host.Core) (n : Nat) (s u : M.State) (h : M.step s = .next u) :
    M.run (n + 1) s = M.run n u := by
  rw [Host.Core.run, h]

theorem core_run_next (M : Host.Core) (n : Nat) (s t : M.State) (h : M.run (n + 1) s = .next t) :
    ∃ u, M.step s = .next u ∧ M.run n u = .next t := by
  rw [Host.Core.run] at h
  cases hs : M.step s with
  | next u => rw [hs] at h; exact ⟨u, rfl, h⟩
  | fault r => rw [hs] at h; cases h
  | refused r => rw [hs] at h; cases h

/-- A run goes on from its first step. -/
theorem run_of_next (n : Nat) (s u : State) (h : step s = .next u) : core.run (n + 1) s = core.run n u :=
  core_run_of_next core n s u h

/-- A run that ends in a state made its first step. -/
theorem run_next (n : Nat) (s t : State) (h : core.run (n + 1) s = .next t) :
    ∃ u, step s = .next u ∧ core.run n u = .next t := core_run_next core n s t h

theorem run_zero (s t : State) : core.run 0 s = .next t ↔ s = t :=
  ⟨fun h => Host.Outcome.next.inj h, fun h => congrArg Host.Outcome.next h⟩

end Sys2Proof.Laws
end

