-- ==== Sys2Proof/Tests/Slice0.lean ====
section
/-! SUPPORT. The model's own tests, expected values from spec/95_test_vectors.md and the rules; the smoke tests of WellFormed; and
a witness for the hypotheses of each statement. -/

namespace Sys2Proof.Tests

open Sys2Proof.Machine

/-- The next state of an outcome. -/
def after (o : Host.Outcome State Fault Refusal) : Option State :=
  match o with
  | .next t => some t
  | .fault _ => none
  | .refused _ => none

/-- The fault of an outcome. -/
def faultOf (o : Host.Outcome State Fault Refusal) : Option Fault :=
  match o with
  | .next _ => none
  | .fault f => some f
  | .refused _ => none

/-- A block that holds a polynomial (length `m`, value `u`), with `L` and `v` in DIN. -/
def holding (m u : Word) (L : Word) (v : Wide) : State :=
  { State.reset with polyHeldLen := m, polyHeld := u, dinLen := L, din := quadOf v }

/-- The step that completes the command word `w` in a state. -/
def completed (s : State) (w : Nat) : Option State := after (step (s.withFetchWord 32 w))

/-- A block with the snapshot `snap` pending. -/
def busyWith (snap : Snapshot) : State := { State.reset with pending := some snap }

/-- A snapshot of word `w` with the given polynomial registers, held polynomial, and data. -/
def snapOf (w m u hl h L : Word) (v : Wide) : Snapshot :=
  { word := w, polyLen := m, polyIn := u, heldLen := hl, held := h, dinLen := L, din := v }

/-- A state whose host is at one line. -/
def atLine (op : HostOp) : State :=
  { State.reset with host := { program := [{ op := op }], pc := 0, temps := [(1, 0x36#32)] }, schedule := [.host] }

/-! ### Words written out from the encoding (30_encoding.md R70, R71) -/

theorem test_decode_setpoly : decode 0b0000000000000000000000000000_0001#32 = .command .setpoly := by decide
theorem test_decode_divide : decode 0b0000000000000000000000000000_0010#32 = .command .divide := by decide
theorem test_decode_encode : decode 0b0000000000000000000000000000_0011#32 = .command .encode := by decide
theorem test_decode_decode : decode 0b0000000000000000000000000000_0100#32 = .command .decode := by decide

/-- 95_test_vectors.md section 2.6. -/
theorem test_decode_illegal :
    decode 0x00000000#32 = .illegal .unusedOp ∧ decode 0x00000005#32 = .illegal .unusedOp ∧
    decode 0x0000000F#32 = .illegal .unusedOp ∧ decode 0x00000010#32 = .illegal .reservedBits ∧
    decode 0x00000011#32 = .illegal .reservedBits ∧ decode 0xFFFFFFFF#32 = .illegal .reservedBits := by decide

/-- Byte lanes (20_memory.md R54): lane 0 carries bits 7:0. -/
theorem test_decode_lanes : decodeLanes [0x03#8, 0x00#8, 0x00#8, 0x00#8, 0xAA#8] = some (.encode, [0xAA#8]) := by decide

theorem test_decode_table_word : decodeTableWord 32 4 = some .decode ∧ decodeTableWord 32 0x10 = none := by decide

/-- R77. -/
theorem test_disassemble :
    disassemble 0x00000002#32 = "DIVIDE" ∧ disassemble 0x8000000C#32 = "ILLEGAL 0x8000000C" := by decide

/-! ### The commands (95_test_vectors.md section 2) -/

/-- S1 of section 2.1. -/
theorem test_setpoly_S1 :
    (completed { State.reset with polyLen := 3#32, polyIn := 0x5#32 } 1).map
      (fun t => (t.statusWord, t.polyHeldLen, t.polyHeld)) = some (0x00000002#32, 3#32, 0x5#32) := by decide

/-- S10 after S1: the stray bit leaves the held polynomial. -/
theorem test_setpoly_S10 :
    (completed { holding 3#32 0x5#32 0#32 0#128 with polyLen := 3#32, polyIn := 0xD#32 } 1).map
      (fun t => (t.statusWord, t.polyHeldLen, t.polyHeld)) = some (0x00000012#32, 3#32, 0x5#32) := by decide

/-- V7: a dividend shorter than the divisor keeps its leading zero. -/
theorem test_divide_V7 :
    (completed (holding 3#32 0x5#32 2#32 0x1#128) 2).map (fun t => (t.rem, t.remRawLen, t.quot, t.quotLen))
      = some (0x1#32, 2#32, Quad.zero, 0#32) := by decide

/-- V12: leading zeros, two passes to strip them. -/
theorem test_divide_V12 :
    (completed (holding 3#32 0x5#32 5#32 0x6#128) 2).map (fun t => (t.rem, t.remRawLen, t.quot.w0, t.quotLen))
      = some (0x3#32, 2#32, 0x1#32, 3#32) := by decide

/-- E1, the scenario of §8 as corrected by 90_conflicts.md C2. -/
theorem test_encode_E1 :
    (completed (holding 3#32 0x5#32 4#32 0xD#128) 3).map (fun t => (t.dout.w0, t.doutLen, t.rem, t.remRawLen))
      = some (0x36#32, 6#32, 0x2#32, 2#32) := by decide

/-- E2: the remainder is padded to its fixed width (90_conflicts.md C1). -/
theorem test_encode_E2 :
    (completed (holding 3#32 0x5#32 1#32 0x1#128) 3).map (fun t => (t.dout.w0, t.doutLen, t.rem, t.remRawLen))
      = some (0x5#32, 3#32, 0x1#32, 1#32) := by decide

/-- D2: the codeword §8 names is not one (90_conflicts.md C2). -/
theorem test_decode_D2 :
    (completed (holding 3#32 0x5#32 6#32 0x35#128) 4).map (fun t => (t.statusWord, t.rem, t.remRawLen))
      = some (0x00000006#32, 0x3#32, 2#32) := by decide

/-- D15: a flip that a single-term generator does not detect (42_codec.md R158). -/
theorem test_decode_D15 :
    (completed (holding 2#32 0x2#32 5#32 0x4#128) 4).map (fun t => (t.statusWord, t.rem, t.remRawLen))
      = some (0x00000002#32, 0x0#32, 0#32) := by decide

/-- Section 2.6. -/
theorem test_illegal_word :
    (completed (holding 3#32 0x5#32 4#32 0xD#128) 0x11).map (fun t => (t.statusWord, t.rem)) = some (0x00000042#32, 0#32) := by
  decide

/-! ### The window (95_test_vectors.md section 2.7) -/

/-- M1: CAP at the defaults. -/
theorem test_read_cap : State.reset.readReg .cap = 0x00002080#32 := by decide

/-- M4 to M8. -/
theorem test_access_errors :
    faultOf (step (atLine (.rd 0x0C 1))) = some (.busError .reserved) ∧
    faultOf (step (atLine (.wr 0x6C 0#32))) = some (.busError .reserved) ∧
    faultOf (step (atLine (.rd 0x02 1))) = some (.busError .misaligned) ∧
    faultOf (step (atLine (.readAt 0x08 2 1))) = some (.busError .size) ∧
    faultOf (step (atLine (.writeAt 0x10 1 0#32))) = some (.busError .size) := by decide

/-- P1's WAIT: the label of a host program and a branch to it (30_encoding.md R75, R76). -/
theorem test_wait_branches :
    (after (step { State.reset with
      host := { program := lineCommand .encode :: linesWAIT 7, pc := 2, temps := [(0, 1#32)] } })).map (fun t => t.host.pc)
      = some 1 := by decide

/-! ### WellFormed: an ill-formed term for each check -/

theorem test_wf_instr : Instr.setpoly.wf && Instr.divide.wf && Instr.encode.wf && Instr.decode.wf = true := by decide

theorem test_wf_word_reserved_bits : legalWord 0x80000001#32 = false := by decide
theorem test_wf_word_op_zero : legalWord 0x00000000#32 = false := by decide
theorem test_wf_word_op_above_four : legalWord 0x00000005#32 = false := by decide

theorem test_wf_program_label_twice :
    programWf [{ label := some 1, op := .comment }, { label := some 1, op := .comment }] = false := by decide
theorem test_wf_program_label_missing : programWf [{ op := .bnz 0 1#32 9 }] = false := by decide
theorem test_wf_program : programWf (linesWAIT 0 ++ linesWAIT 1) = true := by decide

theorem test_wf_params_poly_max_low : ({ Params.default with polyMax := 1 } : Params).wf = false := by decide
theorem test_wf_params_poly_max_high : ({ Params.default with polyMax := 33 } : Params).wf = false := by decide
theorem test_wf_params_w_max_low : ({ Params.default with wMax := 31 } : Params).wf = false := by decide
theorem test_wf_params_w_max_high : ({ Params.default with wMax := 129 } : Params).wf = false := by decide
theorem test_wf_params_base : ({ Params.default with base := 64 } : Params).wf = false := by decide

/-! ### Witnesses: each shows concrete states and operands that meet the hypotheses of the statement it is named after -/

/-- Snapshots used below: "101" held, and the data "1101". -/
def encodeSnap : Snapshot := snapOf 3#32 0#32 0#32 3#32 0x5#32 4#32 0xD#128

theorem witness_DecodeAndEncodeAgree :
    Instr.encode.wf = true ∧ decode 0x00000004#32 = .command .decode ∧
      decodeLanes [0x01#8, 0x00#8, 0x00#8, 0x00#8] = some (.setpoly, []) := by decide

/-- Every word can be pending with the engine's turn next, each of the four and any other. -/
theorem witness_ExecDispatchesOnTheCommandWord (w : Word) :
    (busyWith (snapOf w 0#32 0#32 0#32 0#32 0#32 0#128)).nextTurn = .engine ∧
    (busyWith (snapOf w 0#32 0#32 0#32 0#32 0#32 0#128)).pending = some (snapOf w 0#32 0#32 0#32 0#32 0#32 0#128) :=
  ⟨rfl, rfl⟩

/-- One word for each clause of R72: reserved bits, OP 0, OP 5. -/
theorem witness_IllegalWordsCompleteWithCodeFour :
    State.reset.pending = none ∧ (busyWith { encodeSnap with word := 0x10#32 }).nextTurn = .engine ∧
    (0x10#32 >>> 4 ≠ 0#32) ∧ (0x0#32 &&& 0xF#32 = 0#32) ∧ 5 ≤ (0x5#32 &&& 0xF#32).toNat := by decide

theorem witness_StepRunsTheDecodedInstruction :
    (busyWith encodeSnap).nextTurn = .engine ∧ (busyWith encodeSnap).pending = some encodeSnap ∧ Instr.encode.wf = true ∧
      decode encodeSnap.word = .command .encode := by decide

/-- Each clause at a boundary: m = POLY_MAX + 1; a stray bit at bit m; m = 1; leading 0 at m = 2; accepted at m = 2 and m = 32. -/
theorem witness_SetpolyCompletes :
    (33#32).toNat > Params.default.polyMax ∧
    ((3#32).toNat < 32 ∧ 0x8#32 >>> (3#32).toNat ≠ 0#32) ∧
    (1#32).toNat < 2 ∧ (0x1#32).getLsbD ((2#32).toNat - 1) = false ∧
    ((after (exec .setpoly (busyWith (snapOf 1#32 2#32 0x2#32 0#32 0#32 0#32 0#128)))).map State.errCode = some 0#4) ∧
    ((after (exec .setpoly (busyWith (snapOf 1#32 32#32 0x80000000#32 0#32 0#32 0#32 0#128)))).map State.errCode = some 0#4) := by
  decide

theorem witness_SetpolyAcceptsExactlyValidPolynomials :
    ∃ (s : State) (snap : Snapshot), s.pending = some snap ∧ snap.polyLen.toNat ≤ s.params.polyMax ∧ snap.polyIn.toNat < 2 ^ snap.polyLen.toNat ∧
      ValidSeq snap.polyInSeq :=
  ⟨busyWith (snapOf 1#32 2#32 0x2#32 0#32 0#32 0#32 0#128), _, rfl, by decide, by decide, by unfold ValidSeq; decide⟩

/-- Each clause at a boundary: L = W_MAX + 1; a stray bit at bit L; nothing held; L = 0; and a division. -/
theorem witness_DivideCompletes :
    ((after (exec .divide (busyWith (snapOf 2#32 0#32 0#32 3#32 0x5#32 129#32 0#128)))).map State.errCode = some 3#4) ∧
    ((after (exec .divide (busyWith (snapOf 2#32 0#32 0#32 3#32 0x5#32 4#32 0x10#128)))).map State.errCode = some 1#4) ∧
    ((after (exec .divide (busyWith (snapOf 2#32 0#32 0#32 0#32 0#32 4#32 0xD#128)))).map State.errCode = some 2#4) ∧
    ((after (exec .divide (busyWith (snapOf 2#32 0#32 0#32 3#32 0x5#32 0#32 0#128)))).map State.errCode = some 0#4) ∧
    gf2Div .whole (seqOf 4 0xD) (seqOf 3 0x5) = ([true, true], [true, false]) := by decide

/-- Each clause at a boundary, the codeword's length included: L + c = W_MAX + 1 fails and L + c = W_MAX does not,
with W_MAX at 8. -/
theorem witness_EncodeCompletes :
    ((after (exec .encode (busyWith (snapOf 3#32 0#32 0#32 3#32 0x5#32 129#32 0#128)))).map State.errCode = some 3#4) ∧
    ((after (exec .encode (busyWith (snapOf 3#32 0#32 0#32 3#32 0x5#32 4#32 0x10#128)))).map State.errCode = some 1#4) ∧
    ((after (exec .encode (busyWith (snapOf 3#32 0#32 0#32 0#32 0#32 4#32 0xD#128)))).map State.errCode = some 2#4) ∧
    ((after (exec .encode { busyWith (snapOf 3#32 0#32 0#32 3#32 0x5#32 7#32 0x1#128) with
      params := { Params.default with wMax := 8, polyMax := 8 } })).map State.errCode = some 3#4) ∧
    ((after (exec .encode { busyWith (snapOf 3#32 0#32 0#32 3#32 0x5#32 6#32 0x1#128) with
      params := { Params.default with wMax := 8, polyMax := 8 } })).map State.errCode = some 0#4) := by
  decide

theorem witness_DecodeCompletes :
    ((after (exec .decode (busyWith (snapOf 4#32 0#32 0#32 3#32 0x5#32 129#32 0#128)))).map State.errCode = some 3#4) ∧
    ((after (exec .decode (busyWith (snapOf 4#32 0#32 0#32 3#32 0x5#32 4#32 0x10#128)))).map State.errCode = some 1#4) ∧
    ((after (exec .decode (busyWith (snapOf 4#32 0#32 0#32 0#32 0#32 6#32 0x36#128)))).map State.errCode = some 2#4) ∧
    ((after (exec .decode (busyWith (snapOf 4#32 0#32 0#32 3#32 0x5#32 6#32 0x35#128)))).map State.errDetected = some true) := by
  decide

theorem witness_OperandErrorsAreReportedInOrder :
    ∃ (s : State) (snap : Snapshot), s.pending = some snap ∧ snap.dinLen.toNat ≤ s.params.wMax ∧ snap.din.toNat < 2 ^ snap.dinLen.toNat ∧
      snap.heldLen ≠ 0#32 ∧ snap.dinLen.toNat + snap.heldLen.toNat - 1 > s.params.wMax :=
  ⟨busyWith (snapOf 3#32 0#32 0#32 3#32 0x5#32 127#32 0x1#128), _, rfl, by decide, by decide, by decide, by decide⟩

theorem witness_FailingCommandWritesOnlyErrCode :
    ((busyWith { encodeSnap with heldLen := 0#32 }).nextTurn = .engine ∧
      commandResult (busyWith encodeSnap).params { encodeSnap with heldLen := 0#32 } = .error .divisorDegenerate) ∧
    ∃ t, exec .encode (busyWith (snapOf 3#32 0#32 0#32 0#32 0#32 4#32 0xD#128)) = .next t ∧ t.errCode ≠ 0#4 :=
  ⟨⟨rfl, rfl⟩, _, rfl, by decide⟩

theorem witness_CommandsWriteOnlyTheirRegisters :
    (∃ t, exec .encode (busyWith encodeSnap) = .next t ∧ t.errCode = 0#4) ∧
    ((busyWith encodeSnap).nextTurn = .engine ∧ ∃ t, step (busyWith encodeSnap) = .next t) :=
  ⟨⟨_, rfl, by decide⟩, rfl, _, rfl⟩

/-- Two states that agree on the snapshot and the parameters and differ in a result register. -/
theorem witness_ExecDependsOnlyOnSnapshotAndParameters :
    (busyWith encodeSnap).pending = ({ busyWith encodeSnap with rem := 9#32 } : State).pending ∧
    (busyWith encodeSnap).params = ({ busyWith encodeSnap with rem := 9#32 } : State).params ∧
    busyWith encodeSnap ≠ { busyWith encodeSnap with rem := 9#32 } := by decide

theorem witness_XorStepAndStripAct :
    ([true, false, true] : BitSeq).length ≤ ([false, false, true, true] : BitSeq).length ∧
    ([false, true] : BitSeq).length < ([true, false, true] : BitSeq).length := by decide

theorem witness_DivisionRunsToItsExit : ([true] : BitSeq).head? = some true ∧ ([true, false] : BitSeq).head? = some true := by
  decide

theorem witness_RemainderIsThePolynomialRemainder :
    ValidSeq [true, false] ∧ ([true, false] : BitSeq).length ≤ ([false, true] : BitSeq).length := by
  unfold ValidSeq; decide

theorem witness_RemainderLengthAndClosedForm :
    ValidSeq [true, false, true] ∧ ([false, true] : BitSeq).length < ([true, false, true] : BitSeq).length ∧
    ([true, false, true] : BitSeq).length ≤ ([false, true, true] : BitSeq).length ∧
    ([true, false, true] : BitSeq).length ≤ 32 := by
  unfold ValidSeq; decide

theorem witness_TwoPassesStripLeadingZeros :
    ValidSeq [true, false, true] ∧ ([true, false, true] : BitSeq).length ≤ ([false, false, true] : BitSeq).length ∧
    ([false, false, true] : BitSeq).head? = some false := by
  unfold ValidSeq; decide

theorem witness_PassesAreBounded :
    ValidSeq [true, true] ∧ ([true] : BitSeq).length < ([true, true] : BitSeq).length ∧
    ([true, true] : BitSeq).length ≤ ([true, false] : BitSeq).length ∧ ([true, false] : BitSeq).head? = some true ∧
    ([false, true] : BitSeq).head? = some false := by
  unfold ValidSeq; decide

theorem valid_101 (s : State) (h : s.params = Params.default) : ValidPoly s.params 3#32 0x5#32 := by
  rw [h]; unfold ValidPoly; decide

theorem witness_EncodeLeavesDataAboveCheckBits :
    (busyWith encodeSnap).params.wf = true ∧ (busyWith encodeSnap).pending = some encodeSnap ∧
    ValidPoly (busyWith encodeSnap).params encodeSnap.heldLen encodeSnap.held ∧
    ∃ t, exec .encode (busyWith encodeSnap) = .next t ∧ t.errCode = 0#4 :=
  ⟨by decide, rfl, valid_101 _ rfl, _, rfl, by decide⟩

theorem witness_VerdictIsWhetherRemIsNonzero :
    (busyWith encodeSnap).params.wf = true ∧ (busyWith encodeSnap).pending = some encodeSnap ∧
    ValidPoly (busyWith encodeSnap).params encodeSnap.heldLen encodeSnap.held ∧
    encodeSnap.dinLen.toNat ≤ (busyWith encodeSnap).params.wMax ∧ encodeSnap.din.toNat < 2 ^ encodeSnap.dinLen.toNat :=
  ⟨by decide, rfl, valid_101 _ rfl, by decide, by decide⟩

/-- E1's codeword, received: 6 bits, 0x36. -/
def receivedSnap : Snapshot := snapOf 4#32 0#32 0#32 3#32 0x5#32 6#32 0x36#128

theorem witness_EncodeThenDecodeDetectsNoError :
    (busyWith encodeSnap).params.wf = true ∧
    ValidPoly (busyWith encodeSnap).params encodeSnap.heldLen encodeSnap.held ∧
    encodeSnap.din.toNat < 2 ^ encodeSnap.dinLen.toNat ∧
    encodeSnap.dinLen.toNat + (encodeSnap.heldLen.toNat - 1) ≤ (busyWith encodeSnap).params.wMax ∧
    ∃ t, exec .encode (busyWith encodeSnap) = .next t ∧ receivedSnap.heldLen = encodeSnap.heldLen ∧
      receivedSnap.held = encodeSnap.held ∧ receivedSnap.dinLen = t.doutLen ∧ receivedSnap.din = quadValue t.dout :=
  ⟨by decide, valid_101 _ rfl, by decide, by decide, _, rfl, rfl, rfl, by decide, by decide⟩

/-- The first and the last position of E1's codeword. -/
theorem witness_SingleFlipDetectedUnlessGeneratorDividesThePower :
    ValidPoly (busyWith encodeSnap).params encodeSnap.heldLen encodeSnap.held ∧
    ∃ t, exec .encode (busyWith encodeSnap) = .next t ∧ t.errCode = 0#4 ∧ receivedSnap.dinLen = t.doutLen ∧
      ∀ jv ∈ [(0, 0x16#128), (5, 0x37#128)],
        jv.1 < t.doutLen.toNat ∧ jv.2 = quadValue t.dout ^^^ (1#128 <<< (t.doutLen.toNat - 1 - jv.1)) :=
  ⟨valid_101 _ rfl, _, rfl, by decide, by decide, by decide⟩

/-- The two cases of R158: "101" has two terms, "10" has one. -/
theorem witness_SingleFlipsByNumberOfTerms :
    2 ≤ encodeSnap.heldSeq.count true ∧
    ValidPoly Params.default 2#32 0x2#32 ∧
    (snapOf 3#32 0#32 0#32 2#32 0x2#32 4#32 0xA#128).heldSeq.count true = 1 ∧
    ∃ t, exec .encode (busyWith (snapOf 3#32 0#32 0#32 2#32 0x2#32 4#32 0xA#128)) = .next t ∧ t.errCode = 0#4 :=
  ⟨by decide, by unfold ValidPoly; decide, by decide, _, rfl, by decide⟩

theorem witness_WordsOfSequenceRegisters :
    (3 : Nat) < 4 ∧ 1 ≤ (128 : Nat) ∧ (128 : Nat) ≤ 128 ∧
    (0x70, State.reset.quot) ∈ [(0x30, State.reset.din), (0x50, State.reset.dout), (0x70, State.reset.quot)] := by decide

theorem witness_ValueAndSequenceAreInverse : (0 : Nat) < 1 := by decide

theorem witness_CapReportsTheParameters : State.reset.params.wf = true ∧ ∃ t, step State.reset = .next t :=
  ⟨by decide, _, rfl⟩

theorem witness_BusyFollowsThePendingCommand :
    ((∃ t, step (atLine (.wr 0x04 1#32)) = .next t ∧ t.pending ≠ none) ∧ (atLine (.wr 0x04 1#32)).pending = none) ∧
    ((∃ t, step (busyWith encodeSnap) = .next t ∧ t.pending = none) ∧ (busyWith encodeSnap).pending ≠ none) :=
  ⟨⟨⟨_, rfl, by decide⟩, by decide⟩, ⟨_, rfl, by decide⟩, by decide⟩

theorem witness_CmdWriteIssuesOrIsDropped : (busyWith encodeSnap).pending ≠ none ∧ State.reset.pending = none := by decide

theorem witness_StatusWriteClearsCmdOvrOnly : (0x8#32).getLsbD 3 = true ∧ (0xFFFFFFF7#32).getLsbD 3 = false := by decide

/-- An RD line, and a 32-bit read at the register's platform address. -/
theorem witness_InputRegistersStoreAndReadsHaveNoEffect :
    Reg.din3 ∈ inputRegs ∧
    ∀ op ∈ [.rd Reg.rem.offset 1, .readAt (Params.default.base + Reg.rem.offset) 4 1],
      (atLine op).nextTurn = .host ∧ (atLine op).host.program[(atLine op).host.pc]? = some { op := op } := by decide

/-- A bad size, a misaligned offset, a reserved offset, and an access that succeeds; and the same by RD, WR and WRT lines. -/
theorem witness_OnlyAlignedWordAccessesAtRegisters :
    (∀ os ∈ [(0x10, 2), (0x7D, 4), (0x6C, 4), (0x7C, 4)],
      (atLine (.readAt os.1 os.2 1)).nextTurn = .host ∧
      (atLine (.readAt os.1 os.2 1)).host.program[(0 : Nat)]? = some { op := .readAt (Params.default.base + os.1) os.2 1 } ∧
      os.1 < 128) ∧
    (∀ op ∈ [.rd 0x7D 1, .wr 0x7D 1#32, .wrt 0x7D 1, .rd 0x6C 1, .wr 0x6C 1#32, .wrt 0x6C 1],
      (faultOf (step (atLine op))).isSome = true) ∧
    (after (step (atLine (.rd 0x7C 1)))).isSome = true := by decide

theorem witness_AccessRulesOfRegisterClasses :
    (atLine (.wr 0x7C 1#32)).nextTurn = .host ∧
    (atLine (.wr 0x7C 1#32)).host.program[(atLine (.wr 0x7C 1#32)).host.pc]? = some { op := .wr 0x7C 1#32 } ∧
    faultOf (step (atLine (.wr 0x7C 1#32))) = some (.busError .readOnly) := by decide

theorem witness_AccessesReachTheWindowAtBase : (127 : Nat) < 128 ∧ State.reset.params.base + 128 ≤ 128 := by decide

/-- A dropped command sets CMD_OVR, and a write of 8 to STATUS clears it. -/
theorem witness_CmdOvrIsStickyUntilCleared :
    ((after (step { atLine (.wr 0x04 1#32) with pending := some encodeSnap })).map State.cmdOvr = some true) ∧
    ((after (step { atLine (.wr 0x08 8#32) with cmdOvr := true })).map State.cmdOvr = some false) := by decide

theorem witness_ErrDetectedIsTheLastVerdict :
    ∃ t, step (busyWith { receivedSnap with din := 0x35#128 }) = .next t ∧
      (busyWith { receivedSnap with din := 0x35#128 }).nextTurn = .engine ∧ t.errCode = 0#4 ∧ t.errDetected = true :=
  ⟨_, rfl, rfl, by decide, by decide⟩

theorem witness_ErrCodeIsWrittenAtComplete :
    ∃ t, step (busyWith { encodeSnap with heldLen := 0#32 }) = .next t ∧ t.errCode = 2#4 := ⟨_, rfl, by decide⟩

theorem witness_ErrCodesAreZeroToFour :
    ∃ t, step (busyWith { encodeSnap with word := 0#32 }) = .next t ∧ (busyWith encodeSnap).errCode.toNat ≤ 4 ∧
      (busyWith { encodeSnap with word := 0#32 }).nextTurn = .engine ∧ t.errCode = 4#4 :=
  ⟨_, rfl, by decide, rfl, by decide⟩

theorem witness_OnlySetpolyReplacesTheHeldPolynomial :
    ∃ t, step (busyWith (snapOf 1#32 4#32 0xB#32 0#32 0#32 0#32 0#128)) = .next t ∧
      t.polyHeldLen ≠ (busyWith (snapOf 1#32 4#32 0xB#32 0#32 0#32 0#32 0#128)).polyHeldLen ∧ t.errCode = 0#4 :=
  ⟨_, rfl, by decide, by decide⟩

/-- A host write to DIN_LEN while ENCODE is pending. -/
theorem witness_HostAccessesNeverReachAPendingCommand :
    ∃ t, step { atLine (.wr 0x20 9#32) with pending := some encodeSnap } = .next t ∧ t.dinLen = 9#32 ∧
      ({ atLine (.wr 0x20 9#32) with pending := some encodeSnap } : State).nextTurn = .host ∧
      State.reset.pending = none ∧ Reg.din3 ∈ inputRegs ∧ ∃ u, State.reset.memWrite Reg.din3.offset 4 9#32 = .ok u :=
  ⟨_, rfl, by decide, rfl, rfl, by decide, _, rfl⟩

theorem witness_ResultsChangeOnlyAtComplete :
    ∃ t, step (atLine (.wr 0x20 9#32)) = .next t ∧ (atLine (.wr 0x20 9#32)).nextTurn = .host := ⟨_, rfl, rfl⟩

theorem witness_ResetGivesEveryRegisterItsResetValue :
    ({ busyWith encodeSnap with schedule := [.reset] } : State).nextTurn = .reset := by decide

theorem witness_ResetStateMeetsTheInvariant :
    ({ wMax := 2, polyMax := 2, quotZeroRem := .empty, base := 0x80 } : Params).wf = true := by decide

theorem witness_HeldPolynomialStaysEmptyOrValid :
    HeldOk Params.default 3#32 0x5#32 ∧ HeldOk Params.default 0#32 0#32 ∧
      ∃ t, step (holding 3#32 0x5#32 0#32 0#128) = .next t :=
  ⟨.inr (by unfold ValidPoly; decide), .inl ⟨rfl, rfl⟩, _, rfl⟩

/-- A state that no reset leaves, with a command pending, meets the invariant and steps. -/
theorem witness_EveryStepKeepsTheInvariant :
    Inv { busyWith encodeSnap with polyHeldLen := 3#32, polyHeld := 0x5#32 } ∧
      ∃ t, step { busyWith encodeSnap with polyHeldLen := 3#32, polyHeld := 0x5#32 } = .next t := by
  refine ⟨⟨by decide, .inr (valid_101 State.reset rfl), ?_, ?_, by decide, rfl⟩, _, rfl⟩
  · intro snap h
    injection h with h
    subst h
    exact .inr (valid_101 State.reset rfl)
  · unfold ResultsOk; decide

theorem witness_PendingCommandEventuallyCompletes :
    ∃ t, core.run 2 { busyWith encodeSnap with schedule := [.host] } = .next t :=
  ⟨_, rfl⟩

theorem witness_BusyClearsOnlyByCompleteOrReset :
    ∃ t : State, core.run 1 (busyWith encodeSnap) = .next t ∧ t.pending = none := ⟨_, rfl, rfl⟩

theorem witness_TurnsComeFromTheSchedule :
    ({ State.reset with schedule := [.engine] } : State).nextTurn = .engine ∧ State.reset.schedule = [] ∧
    State.reset.nextTurn = .host ∧ State.reset.host.program.length ≤ State.reset.host.pc := by decide

/-- A WR line that writes and one that faults; a taken and an untaken BNZ, with its label and without; a comment. -/
theorem witness_HostLinesDoWhatTheNotationSays :
    (∃ t, (atLine (.wr 0x10 3#32)).memWrite 0x10 4 3#32 = .ok t) ∧ (atLine (.wr 0x10 3#32)).nextTurn = .host ∧
    (∃ c, (atLine (.wr 0x18 3#32)).memWrite 0x18 4 3#32 = .error c) ∧
    (∃ w, (atLine (.rd 0x7C 1)).memRead 0x7C 4 = .ok w) ∧ (∃ c, (atLine (.rd 0x7D 1)).memRead 0x7D 4 = .error c) ∧
    (atLine .comment).temp 1 &&& 0x36#32 ≠ 0#32 ∧ (atLine .comment).temp 1 &&& 0x1#32 = 0#32 ∧
    findLabel (linesWAIT 5) 5 = some 0 ∧ findLabel (atLine .comment).host.program 5 = none ∧
    (atLine .comment).nextTurn = .host ∧ (atLine .comment).host.program[(0 : Nat)]? = some { op := .comment } ∧
    tempsWf (atLine .comment).host.temps = true :=
  ⟨⟨_, rfl⟩, rfl, ⟨_, rfl⟩, ⟨_, rfl⟩, ⟨_, rfl⟩, by decide, by decide, by decide, by decide, rfl, rfl, by decide⟩

/-- A state whose host is at the first of some lines, in the middle of its program, with `n` host turns next. -/
def atLinesOf (ls : List HostLine) (n : Nat) : State :=
  { State.reset with
    host := { program := { op := .comment } :: ls, pc := 1, temps := [(0, 0x36#32)] }, schedule := List.replicate n .host }

theorem atLines_atLinesOf (ls : List HostLine) (n : Nat) : AtLines (atLinesOf ls n) ls := by
  intro i _
  show ({ op := .comment } :: ls)[1 + i]? = ls[i]?
  rw [Nat.add_comm, List.getElem?_cons_succ]

/-- The longest strings with a view, 32 and 128 digits; with every turn listed, and with none. -/
theorem witness_LoadedDigitStringsAreTheViews :
    (AtLines (atLinesOf (linesLDPOLY (List.replicate 32 true)) 2) (linesLDPOLY (List.replicate 32 true)) ∧
      HostTurnsNext 2 (atLinesOf (linesLDPOLY (List.replicate 32 true)) 2)) ∧
    (AtLines (atLinesOf (linesLDDIN (List.replicate 128 true)) 0) (linesLDDIN (List.replicate 128 true)) ∧
      HostTurnsNext 5 (atLinesOf (linesLDDIN (List.replicate 128 true)) 0)) :=
  ⟨⟨atLines_atLinesOf _ _, .inl ⟨[], rfl⟩⟩, ⟨atLines_atLinesOf _ _, .inr ⟨rfl, 0, Nat.zero_le _, rfl⟩⟩⟩

/-- DECODE issued and dropped; CLROVR; WAIT with nothing pending, and with a command pending. -/
theorem witness_PseudoInstructionsDoWhatTheirExpansionsDo :
    (AtLines (atLinesOf [lineCommand .decode] 1) [lineCommand .decode] ∧
      (atLinesOf [lineCommand .decode] 1).nextTurn = .host ∧ (atLinesOf [lineCommand .decode] 1).pending = none ∧
      ({ atLinesOf [lineCommand .decode] 1 with pending := some encodeSnap } : State).nextTurn = .host) ∧
    AtLines (atLinesOf [lineCLROVR] 1) [lineCLROVR] ∧
    (AtLines (atLinesOf (linesWAIT 7) 2) (linesWAIT 7) ∧
      findLabel (atLinesOf (linesWAIT 7) 2).host.program 7 = some (atLinesOf (linesWAIT 7) 2).host.pc ∧
      HostTurnsNext 2 (atLinesOf (linesWAIT 7) 2) ∧
      HostTurnsNext 2 { atLinesOf (linesWAIT 7) 2 with pending := some encodeSnap } ∧
      tempsWf (atLinesOf (linesWAIT 7) 2).host.temps = true) :=
  ⟨⟨atLines_atLinesOf _ _, rfl, rfl, rfl⟩, atLines_atLinesOf _ _,
    ⟨atLines_atLinesOf _ _, by decide, .inl ⟨[], rfl⟩, .inl ⟨[], rfl⟩, by decide⟩⟩

end Sys2Proof.Tests
end

section
/-! PROOFS. The statements of spec/00_scope.md: sequences and their values (R12), and the turns of the two agents (R10). -/

namespace Sys2Proof.Proofs

open Sys2Proof.Machine Sys2Proof.Laws

/-! ### The polynomial of a sequence, `val` and `seq_L` (R12) -/

/-- The sums of R12 over a sequence, the first element split off: it has the highest exponent. -/
theorem sum_elements_cons {M : Type*} [AddCommMonoid M] (f : Bool → ℕ → M) (b : Bool) (s : BitSeq) :
    ∑ i : Fin (b :: s).length, f (b :: s)[i] ((b :: s).length - 1 - i.val) =
      f b s.length + ∑ i : Fin s.length, f s[i] (s.length - 1 - i.val) := by
  refine (Fin.sum_univ_succ (n := s.length) _).trans ?_
  refine congrArg₂ (· + ·) rfl (Finset.sum_congr rfl fun i _ => congrArg (f s[i]) ?_)
  simp only [List.length_cons, Fin.val_succ]
  omega

theorem polyOf_eq_sum (s : BitSeq) :
    polyOf s = ∑ i : Fin s.length, (if s[i] then Polynomial.X ^ (s.length - 1 - i.val) else 0) := by
  induction s with
  | nil => rfl
  | cons b s ih =>
    rw [sum_elements_cons (fun c n => if c then (Polynomial.X : Polynomial (ZMod 2)) ^ n else 0), ← ih, polyOf]

theorem val_eq_sum (s : BitSeq) : val s = ∑ i : Fin s.length, (s[i]).toNat * 2 ^ (s.length - 1 - i.val) := by
  induction s with
  | nil => rfl
  | cons b s ih => rw [sum_elements_cons (fun c n => c.toNat * 2 ^ n), ← ih, val_cons]

/-- Element `i` of `seq_L(v)` is bit `L - 1 - i` of `v`. -/
theorem seqOf_getElem? (L v i : Nat) (h : i < L) : (seqOf L v)[i]? = some (v.testBit (L - 1 - i)) := by
  induction L generalizing i with
  | zero => omega
  | succ L ih =>
    cases i with
    | zero => rfl
    | succ i =>
      rw [seqOf_succ, List.getElem?_cons_succ, ih i (by omega)]
      congr 2
      omega

/-- `seq_L` reads the low `L` bits of a value only. -/
theorem seqOf_congr (L v w : Nat) (h : ∀ i < L, v.testBit i = w.testBit i) : seqOf L v = seqOf L w := by
  induction L with
  | zero => rfl
  | succ L ih => rw [seqOf_succ, seqOf_succ, h L (by omega), ih fun i hi => h i (by omega)]

/-- The bits of a nonempty sequence's value: the first element on top, the value of the others below it. -/
theorem testBit_val_cons (b : Bool) (s : BitSeq) (i : Nat) :
    (val (b :: s)).testBit i = if i < s.length then (val s).testBit i else b.toNat.testBit (i - s.length) := by
  rw [val_cons, Nat.mul_comm, Nat.testBit_two_pow_mul_add _ (val_lt s)]

/-- `seq_L` undoes `val`. -/
theorem seqOf_val (s : BitSeq) : seqOf s.length (val s) = s := by
  induction s with
  | nil => rfl
  | cons b s ih =>
    have top : (val (b :: s)).testBit s.length = b := by
      rw [testBit_val_cons, if_neg (Nat.lt_irrefl _), Nat.sub_self]
      cases b <;> rfl
    have low : seqOf s.length (val (b :: s)) = seqOf s.length (val s) :=
      seqOf_congr _ _ _ fun i hi => by rw [testBit_val_cons, if_pos hi]
    rw [List.length_cons, seqOf_succ, top, low, ih]

/-- `val` undoes `seq_L` on the low `L` bits. -/
theorem val_seqOf (L v : Nat) : val (seqOf L v) = v % 2 ^ L := by
  induction L with
  | zero => simp [Nat.mod_one]
  | succ L ih => rw [seqOf_succ, val_cons, seqOf_length, ih, Nat.toNat_testBit, Nat.mod_pow_succ, Nat.mul_comm, Nat.add_comm]

/-- Settles O26, by induction on the sequence or on its length, from the top bit down. -/
theorem valueAndSequenceAreInverse : Obligations.ValueAndSequenceAreInverse :=
  ⟨polyOf_eq_sum, by simp [polyOf], val_eq_sum, fun s => ⟨val_lt s, seqOf_val s⟩, seqOf_getElem?,
    fun L v => ⟨seqOf_length L v, val_seqOf L v⟩⟩

/-! ### The turns (R10) -/

/-- A host access does not touch the turns to come: they are the model's own field (log 3). -/
theorem writeReg_schedule (s t : State) (r : Reg) (v : Word) (h : s.writeReg r v = some t) :
    t.schedule = s.schedule := by
  rcases writeReg_some s t r v h with ⟨-, rfl⟩ | ⟨-, rfl⟩ | ⟨-, rfl⟩ | ⟨-, rfl⟩ | ⟨-, rfl⟩ | ⟨-, rfl⟩ | ⟨-, rfl⟩ |
    ⟨-, rfl⟩ | ⟨-, rfl⟩ <;> simp

theorem hostTurn_schedule (s t : State) (h : s.hostTurn = .next t) : t.schedule = s.schedule := by
  rcases hostTurn_cases s t h with ⟨-, rfl⟩ | ⟨r, v, u, -, hw, rfl⟩ | ⟨r, n, rfl⟩ | ⟨n, v, rfl⟩ | ⟨n, rfl⟩
  case inr.inl => exact writeReg_schedule s u r v hw
  all_goals rfl

/-- The engine's turn leaves no command pending (R10, R39) and does not change the turns to come. -/
theorem engineTurn_pending_schedule (s t : State) (h : engineTurn s = .next t) :
    t.pending = none ∧ t.schedule = s.schedule := by
  rcases engineTurn_cases s t h with ⟨hp, rfl⟩ | ⟨snap, i, -, -, he⟩ | ⟨snap, why, -, -, rfl⟩
  · exact ⟨hp, rfl⟩
  · rw [exec_next] at he
    obtain rfl := Host.Outcome.next.inj he
    rcases complete_cases s _ with ⟨hp, hc⟩ | ⟨_, _, -, -, hc⟩ | ⟨_, _, -, -, hc⟩ <;> rw [hc]
    · exact ⟨hp, rfl⟩
    · exact ⟨rfl, rfl⟩
    · exact ⟨rfl, rfl⟩
  · exact ⟨rfl, rfl⟩

/-- A step takes the first turn off the schedule and lists no other. -/
theorem step_schedule (s t : State) (h : step s = .next t) : t.schedule = s.schedule.tail := by
  rcases step_cases s t h with ⟨-, hh⟩ | ⟨-, he⟩ | ⟨-, rfl⟩
  · exact hostTurn_schedule _ t hh
  · exact (engineTurn_pending_schedule _ t he).2
  · rfl

/-- A step of the engine leaves no command pending. -/
theorem step_pending_of_engine (s t : State) (hn : s.nextTurn = .engine) (h : step s = .next t) : t.pending = none := by
  rcases step_cases s t h with ⟨hh, -⟩ | ⟨-, he⟩ | ⟨hr, -⟩
  · simp [hn] at hh
  · exact (engineTurn_pending_schedule _ t he).1
  · simp [hn] at hr

/-- O48 with the listed turns named, so that the induction can follow them. -/
theorem run_reaches_idle (as : List Turn) (s t : State) (hs : s.schedule = as) (hr : core.run (as.length + 1) s = .next t) :
    ∃ (n : Nat) (u : State), n ≤ as.length + 1 ∧ core.run n s = .next u ∧ u.pending = none := by
  induction as generalizing s with
  | nil =>
    cases hp : s.pending with
    | none => exact ⟨0, s, by simp, (run_zero s s).mpr rfl, hp⟩
    | some snap =>
      obtain ⟨u, hu, -⟩ := run_next _ s t hr
      have hn : s.nextTurn = .engine := nextTurn_nil_busy s snap hs hp
      exact ⟨1, u, by simp, (run_of_next 0 s u hu).trans ((run_zero u u).mpr rfl), step_pending_of_engine s u hn hu⟩
  | cons a as ih =>
    obtain ⟨u, hu, hr'⟩ := run_next _ s t hr
    have hs' : u.schedule = as := by rw [step_schedule s u hu, hs, List.tail_cons]
    obtain ⟨n, v, hn, hv, hp⟩ := ih u hs' hr'
    exact ⟨n + 1, v, by simpa using hn, (run_of_next n s u hu).trans hv, hp⟩

/-- Settles O48, by induction on the turns listed: with none left, the engine's step completes the command. -/
theorem pendingCommandEventuallyCompletes : Obligations.PendingCommandEventuallyCompletes :=
  fun s t hr => run_reaches_idle s.schedule s t rfl hr

theorem nextTurn_nil (s : State) (h : s.schedule = []) :
    (s.nextTurn = .engine ↔ s.pending ≠ none) ∧ (s.nextTurn = .host ↔ s.pending = none) := by
  cases hp : s.pending with
  | none => simp [nextTurn_nil_idle s h hp]
  | some snap => simp [nextTurn_nil_busy s snap h hp]

/-- The engine's turn with no command pending only takes the turn (R39: Complete is not enabled). -/
theorem step_of_engine_idle (s : State) (hn : s.nextTurn = .engine) (hp : s.pending = none) :
    step s = .next s.popTurn := by
  simp [step, hn, engineTurn, hp]

/-- The host's turn at the end of its program only takes the turn. -/
theorem step_of_host_at_end (s : State) (hn : s.nextTurn = .host) (h : s.host.program.length ≤ s.host.pc) :
    step s = .next s.popTurn := by
  have hl : s.host.program[s.host.pc]? = none := List.getElem?_eq_none h
  simp [step, hn, State.hostTurn, hl]

/-- Settles O50: `nextTurn` case by case, and the two turns in which an agent has no step to make. -/
theorem turnsComeFromTheSchedule : Obligations.TurnsComeFromTheSchedule :=
  ⟨nextTurn_cons, nextTurn_nil, step_of_engine_idle, step_of_host_at_end⟩

end Sys2Proof.Proofs
end

section
/-! PROOFS. The statements of spec/10_state.md: what each command writes (R42, R43), the STATUS and CAP words (R22 to R30), the issue
of a command (R40), and the invariant of the machine (R35 to R37, R44). -/

namespace Sys2Proof.Proofs

open Sys2Proof.Machine Sys2Proof.Laws

/-! ### Reads and writes by the window offset (R22, R24 to R26, R30, R40) -/

/-- The bits of STATUS, lowest first (R24). -/
theorem statusWord_bits (s : State) :
    s.statusWord.getLsbD 0 = s.busy ∧ s.statusWord.getLsbD 1 = s.polyValid ∧ s.statusWord.getLsbD 2 = s.errDetected ∧
      s.statusWord.getLsbD 3 = s.cmdOvr := by
  simp only [State.statusWord, BitVec.getLsbD_append]
  simp

/-- STATUS above its four flags is ERR_CODE with zeros above it (R24). -/
theorem statusWord_getLsbD_add_four (s : State) (i : Nat) :
    s.statusWord.getLsbD (4 + i) = if i < 4 then s.errCode.getLsbD i else false := by
  simp only [State.statusWord, BitVec.getLsbD_append]
  simp [show ¬ 4 + i < 1 by omega]

/-- ERR_CODE is bits 7:4 of STATUS, and the bits above are 0. -/
theorem statusWord_fields (s : State) :
    s.statusWord.extractLsb' 4 4 = s.errCode ∧ s.statusWord.extractLsb' 8 24 = 0#24 := by
  constructor <;> refine BitVec.eq_of_getLsbD_eq fun i hi => ?_
  · rw [BitVec.getLsbD_extractLsb', statusWord_getLsbD_add_four]
    simp [hi]
  · rw [BitVec.getLsbD_extractLsb', show 8 + i = 4 + (4 + i) by omega, statusWord_getLsbD_add_four]
    simp

/-- BUSY says whether a command is pending (R25). -/
theorem busy_iff (s : State) : s.busy = true ↔ s.pending ≠ none := by
  simp [State.busy, Option.isSome_iff_ne_none]

/-- Settles O29: STATUS is its fields side by side. -/
theorem statusReadsItsFields : Obligations.StatusReadsItsFields := by
  intro s
  obtain ⟨h0, h1, h2, h3⟩ := statusWord_bits s
  obtain ⟨hcode, habove⟩ := statusWord_fields s
  refine ⟨s.statusWord, memRead_offset s .status, ?_, ?_, h2, h3, hcode, habove⟩
  · rw [h0, busy_iff]
  · rw [h1, State.polyValid, decide_eq_true_iff]

/-- Settles O31: a write to CMD is the issue of a command, with nothing or something pending. -/
theorem cmdWriteIssuesOrIsDropped : Obligations.CmdWriteIssuesOrIsDropped := by
  intro s v
  have hw : s.memWrite 0x04 4 v = .ok (s.issue v) := memWrite_of_some s _ .cmd v rfl
  constructor
  · intro hp
    obtain ⟨snap, hs⟩ := Option.ne_none_iff_exists'.mp hp
    rw [hw, issue_of_some s v snap hs]
  · intro hp
    rw [hw, issue_of_none s v hp]
    rfl

/-- Settles O32: a write to STATUS is `writeStatus`, and of the value it looks at bit 3 only. -/
theorem statusWriteClearsCmdOvrOnly : Obligations.StatusWriteClearsCmdOvrOnly := by
  intro s v
  have hw : s.memWrite 0x08 4 v = .ok (s.writeStatus v) := memWrite_of_some s _ .status v rfl
  constructor <;> intro hv <;> simp only [hw, State.writeStatus, hv, Bool.not_true, Bool.not_false, Bool.and_false, Bool.and_true]

/-- CAP as a number: POLY_MAX above the low byte, which holds W_MAX (R22). -/
theorem capWord_toNat (p : Params) (h : p.wf = true) :
    (capWord p).toNat = p.polyMax * 256 + p.wMax ∧ p.polyMax ≤ 32 ∧ p.wMax ≤ 128 := by
  simp only [Params.wf, Bool.and_eq_true, decide_eq_true_eq] at h
  obtain ⟨⟨⟨⟨-, hpoly⟩, -⟩, hw⟩, -⟩ := h
  refine ⟨?_, hpoly, hw⟩
  rw [capWord, ← Nat.shiftLeft_add_eq_or_of_lt (show p.wMax < 2 ^ 8 by omega), Nat.shiftLeft_eq, BitVec.toNat_ofNat]
  omega

/-- CAP's three fields. -/
theorem capWord_fields (p : Params) (h : p.wf = true) :
    ((capWord p).extractLsb' 0 8).toNat = p.wMax ∧ ((capWord p).extractLsb' 8 8).toNat = p.polyMax ∧
      (capWord p).extractLsb' 16 16 = 0#16 := by
  obtain ⟨hcap, hpoly, hw⟩ := capWord_toNat p h
  refine ⟨?_, ?_, BitVec.eq_of_toNat_eq ?_⟩ <;>
    simp only [BitVec.extractLsb'_toNat, hcap, Nat.shiftRight_eq_div_pow, BitVec.toNat_ofNat] <;> omega

/-! ### What a command writes (R39, R42, R43) -/

/-- `Exec` of one command (R71): the function of the parameters and the snapshot that its Complete step runs. -/
def runOf : Instr → Params → Snapshot → Except CommandError Writes
  | .setpoly => setPoly
  | .divide => divideCommand
  | .encode => encodeCommand
  | .decode => decodeCommand

theorem exec_eq_complete (i : Instr) (s : State) : exec i s = .next (s.complete (runOf i)) := by
  cases i <;> rfl

theorem commandResult_of_command (p : Params) (snap : Snapshot) (i : Instr) (h : decode snap.word = .command i) :
    commandResult p snap = runOf i p snap := by
  cases i <;> simp [commandResult, h, runOf]

theorem commandResult_of_illegal (p : Params) (snap : Snapshot) (why : IllegalReason)
    (h : decode snap.word = .illegal why) : commandResult p snap = .error .illegalCommand := by
  simp [commandResult, h]

/-- A pending word completes without error only if it is the word of a command. -/
theorem commandResult_ok (p : Params) (snap : Snapshot) (w : Writes) (h : commandResult p snap = .ok w) :
    ∃ i, decode snap.word = .command i ∧ runOf i p snap = .ok w := by
  cases hd : decode snap.word with
  | command i => exact ⟨i, rfl, by rw [← h, commandResult_of_command p snap i hd]⟩
  | illegal why => rw [commandResult_of_illegal p snap why hd] at h; cases h

/-- No error has the code of success (60_exceptions.md R201). -/
theorem errorCode_ne_zero (e : CommandError) : errorCode e ≠ 0#4 := by cases e <;> decide

theorem errorCode_le_four (e : CommandError) : (errorCode e).toNat ≤ 4 := by cases e <;> decide

/-- The operands, where there are any, are the views of the data and of the held polynomial (R38). -/
theorem seqOperands_ok_views (p : Params) (snap : Snapshot) (d g : BitSeq) (h : seqOperands p snap = .ok (d, g)) :
    d = snap.dinSeq ∧ g = snap.heldSeq :=
  (seqOperands_ok p snap d g h).2.2.2

/-- A SETPOLY that succeeds writes its candidate, which is a valid polynomial (40_polynomial.md R100). -/
theorem setPoly_ok (p : Params) (snap : Snapshot) (w : Writes) (h : setPoly p snap = .ok w) :
    ValidPoly p snap.polyLen snap.polyIn ∧ w = { polyHeld := some (snap.polyLen, snap.polyIn) } := by
  simp only [setPoly] at h
  split at h
  · cases h
  · split at h
    · cases h
    · split at h
      · cases h
      · rename_i hlen hstray hdeg
        simp only [Bool.or_eq_true, decide_eq_true_eq, not_or, Bool.not_eq_true', Bool.not_eq_false] at hdeg
        obtain ⟨htwo, htop⟩ := hdeg
        cases h
        exact ⟨⟨by omega, by omega, htop, (strayBit_eq_false_iff _ _).mp (by simpa using hstray)⟩, rfl⟩

/-- A DIVIDE that succeeds writes the raw remainder and the quotient (41_divider.md R131). -/
theorem divideCommand_ok (p : Params) (snap : Snapshot) (w : Writes) (h : divideCommand p snap = .ok w) :
    seqOperands p snap = .ok (snap.dinSeq, snap.heldSeq) ∧
      ∃ q, q = placeholderQuotient p.quotZeroRem snap.dinSeq (rawRemainder snap.dinSeq snap.heldSeq).length ∧
        w = { rem := some (remWrite (rawRemainder snap.dinSeq snap.heldSeq))
              quot := some (word32 q.length, word128 (val q)) } := by
  unfold divideCommand at h
  split at h
  · cases h
  · rename_i d g hd
    obtain ⟨rfl, rfl⟩ := seqOperands_ok_views p snap d g hd
    exact ⟨hd, _, rfl, (Except.ok.inj h).symm⟩

/-- An ENCODE that succeeds writes the codeword, which fits W_MAX, and the raw remainder (42_codec.md R150). -/
theorem encodeCommand_ok (p : Params) (snap : Snapshot) (w : Writes) (h : encodeCommand p snap = .ok w) :
    seqOperands p snap = .ok (snap.dinSeq, snap.heldSeq) ∧
      ∃ c r, c = snap.heldLen.toNat - 1 ∧ r = rawRemainder (snap.dinSeq ++ zeros c) snap.heldSeq ∧
        snap.dinSeq.length + c ≤ p.wMax ∧
        w = { dout := some (word32 (snap.dinSeq.length + c), word128 (val (snap.dinSeq ++ fixedWidth c r)))
              rem := some (remWrite r) } := by
  unfold encodeCommand at h
  split at h
  · cases h
  · rename_i d g hd
    obtain ⟨rfl, rfl⟩ := seqOperands_ok_views p snap d g hd
    dsimp only at h
    split at h
    · cases h
    · rename_i hlen
      exact ⟨hd, _, _, rfl, rfl, Nat.le_of_not_gt hlen, (Except.ok.inj h).symm⟩

/-- A DECODE that succeeds writes the verdict of the raw remainder, and the raw remainder (42_codec.md R155). -/
theorem decodeCommand_ok (p : Params) (snap : Snapshot) (w : Writes) (h : decodeCommand p snap = .ok w) :
    seqOperands p snap = .ok (snap.dinSeq, snap.heldSeq) ∧
      w = { errDetected := some (verdict (rawRemainder snap.dinSeq snap.heldSeq))
            rem := some (remWrite (rawRemainder snap.dinSeq snap.heldSeq)) } := by
  unfold decodeCommand at h
  split at h
  · cases h
  · rename_i d g hd
    obtain ⟨rfl, rfl⟩ := seqOperands_ok_views p snap d g hd
    exact ⟨hd, (Except.ok.inj h).symm⟩

/-- The registers, beside STATUS, that a success with these writes writes. -/
def regsOf (w : Writes) : List Reg :=
  (if w.polyHeld.isSome then [.polyHeldLen, .polyHeld] else []) ++
  (if w.dout.isSome then [.dout0, .dout1, .dout2, .dout3, .doutLen] else []) ++
  (if w.rem.isSome then [.rem, .remRawLen] else []) ++
  (if w.quot.isSome then [.quot0, .quot1, .quot2, .quot3, .quotLen] else [])

/-- A command that succeeds writes the registers of R43, and ERR_DETECTED if it is DECODE. -/
theorem runOf_ok_regs (i : Instr) (p : Params) (snap : Snapshot) (w : Writes) (h : runOf i p snap = .ok w) :
    regsOf w = writtenRegs i ∧ (w.errDetected.isSome ↔ i = .decode) := by
  cases i with
  | setpoly => obtain ⟨-, rfl⟩ := setPoly_ok p snap w h; simp [regsOf, writtenRegs]
  | divide => obtain ⟨-, q, -, rfl⟩ := divideCommand_ok p snap w h; simp [regsOf, writtenRegs]
  | encode => obtain ⟨-, c, r, -, -, -, rfl⟩ := encodeCommand_ok p snap w h; simp [regsOf, writtenRegs]
  | decode => obtain ⟨-, rfl⟩ := decodeCommand_ok p snap w h; simp [regsOf, writtenRegs]

/-- A failure changes no register beside STATUS (60_exceptions.md R200). -/
theorem readReg_failCommand (s : State) (e : CommandError) (r : Reg) (h : r ≠ .status) :
    (s.failCommand e).readReg r = s.readReg r := by
  cases r
  case status => exact absurd rfl h
  all_goals rfl

/-- A success keeps every register that it does not write. -/
theorem readReg_finishCommand_of_notMem (s : State) (w : Writes) (r : Reg) (hs : r ≠ .status) (h : r ∉ regsOf w) :
    (s.finishCommand w).readReg r = s.readReg r := by
  simp only [regsOf, List.mem_append, not_or] at h
  obtain ⟨⟨⟨hp, hd⟩, hr⟩, hq⟩ := h
  cases r
  case status => exact absurd rfl hs
  case polyHeldLen | polyHeld => simp at hp; simp [State.readReg, hp]
  case doutLen | dout0 | dout1 | dout2 | dout3 => simp at hd; simp [State.readReg, hd]
  case remRawLen | rem => simp at hr; simp [State.readReg, hr]
  case quotLen | quot0 | quot1 | quot2 | quot3 => simp at hq; simp [State.readReg, hq]
  all_goals rfl

/-- What a success writes does not depend on the registers. -/
theorem readReg_finishCommand_of_mem (s u : State) (w : Writes) (r : Reg) (h : r ∈ regsOf w) :
    (s.finishCommand w).readReg r = (u.finishCommand w).readReg r := by
  obtain ⟨ph, d, rm, q, ed⟩ := w
  simp only [regsOf, List.mem_append] at h
  rcases h with ((h | h) | h) | h
  · cases ph with
    | none => simp at h
    | some x => simp at h; rcases h with rfl | rfl <;> rfl
  · cases d with
    | none => simp at h
    | some x => simp at h; rcases h with rfl | rfl | rfl | rfl | rfl <;> rfl
  · cases rm with
    | none => simp at h
    | some x => simp at h; rcases h with rfl | rfl <;> rfl
  · cases q with
    | none => simp at h
    | some x => simp at h; rcases h with rfl | rfl | rfl | rfl | rfl <;> rfl

/-- A turn taken off the schedule changes no register. -/
@[simp] theorem readReg_popTurn (s : State) (r : Reg) : s.popTurn.readReg r = s.readReg r := by
  cases r <;> rfl

/-- No Complete step writes an input register (R43). -/
theorem readReg_complete_of_input (s : State) (run : Params → Snapshot → Except CommandError Writes) (r : Reg)
    (h : r ∈ inputRegs) : (s.complete run).readReg r = s.readReg r := by
  simp only [inputRegs, List.mem_cons, List.not_mem_nil, or_false] at h
  rcases complete_cases s run with ⟨-, hc⟩ | ⟨_, _, -, -, hc⟩ | ⟨_, _, -, -, hc⟩ <;> rw [hc]
  all_goals rcases h with rfl | rfl | rfl | rfl | rfl | rfl | rfl <;> rfl

/-- A Complete step keeps CMD_OVR, the parameters, the host and the turns to come. -/
theorem complete_frame (s : State) (run : Params → Snapshot → Except CommandError Writes) :
    (s.complete run).cmdOvr = s.cmdOvr ∧ (s.complete run).params = s.params ∧ (s.complete run).host = s.host ∧
      (s.complete run).schedule = s.schedule := by
  rcases complete_cases s run with ⟨-, hc⟩ | ⟨_, _, -, -, hc⟩ | ⟨_, _, -, -, hc⟩ <;> simp [hc]

/-- The engine's turn is the Complete step of the command in the snapshot. -/
theorem engineTurn_eq_complete (s : State) : engineTurn s = .next (s.complete commandResult) := by
  unfold engineTurn
  cases hp : s.pending with
  | none => simp [complete_of_none s _ hp]
  | some snap =>
    cases hd : decode snap.word with
    | command i =>
      simp only [hd, exec_eq_complete, State.complete, hp, commandResult_of_command _ snap i hd]
    | illegal why =>
      simp only [hd]
      rw [complete_of_error s _ snap _ hp (commandResult_of_illegal _ snap why hd)]

/-- In the engine's turn a step is the Complete step. -/
theorem step_of_engine (s t : State) (hn : s.nextTurn = .engine) (h : step s = .next t) :
    t = s.popTurn.complete commandResult := by
  simp only [step, hn, engineTurn_eq_complete] at h
  exact (Host.Outcome.next.inj h).symm

/-- Settles O13: success writes `regsOf` its writes, failure STATUS only. -/
theorem commandsWriteOnlyTheirRegisters : Obligations.CommandsWriteOnlyTheirRegisters := by
  constructor
  · intro s t snap i hp he
    rw [exec_eq_complete] at he
    obtain rfl := Host.Outcome.next.inj he
    refine ⟨?_, ?_, complete_frame s _⟩
    · intro r hs hr
      cases hrun : runOf i s.params snap with
      | error e =>
        rw [complete_of_error s _ snap e hp hrun]
        exact readReg_failCommand s e r hs
      | ok w =>
        rw [complete_of_ok s _ snap w hp hrun] at hr ⊢
        refine readReg_finishCommand_of_notMem s w r hs ?_
        rw [(runOf_ok_regs i _ snap w hrun).1]
        exact hr.resolve_right fun hne => hne rfl
    · intro hi
      cases hrun : runOf i s.params snap with
      | error e => rw [complete_of_error s _ snap e hp hrun]; rfl
      | ok w =>
        rw [complete_of_ok s _ snap w hp hrun] at hi ⊢
        have hne : i ≠ .decode := hi.resolve_right fun hne => hne rfl
        have hnone : w.errDetected = none := by simpa [hne] using (runOf_ok_regs i _ snap w hrun).2
        simp [hnone]
  · intro s t hn h r hr
    rw [step_of_engine s t hn h, readReg_complete_of_input _ _ r hr, readReg_popTurn]

/-- Settles O14: both states run the same function of the snapshot and the parameters. -/
theorem execDependsOnlyOnSnapshotAndParameters : Obligations.ExecDependsOnlyOnSnapshotAndParameters := by
  intro s u snap i hs hu hparams
  refine ⟨_, _, exec_eq_complete i s, exec_eq_complete i u, ?_⟩
  cases hrun : runOf i s.params snap with
  | error e =>
    rw [complete_of_error s _ snap e hs hrun, complete_of_error u _ snap e hu (hparams ▸ hrun)]
    exact ⟨rfl, fun h0 => absurd h0 (errorCode_ne_zero e)⟩
  | ok w =>
    rw [complete_of_ok s _ snap w hs hrun, complete_of_ok u _ snap w hu (hparams ▸ hrun)]
    obtain ⟨hregs, hdetected⟩ := runOf_ok_regs i _ snap w hrun
    refine ⟨rfl, fun _ => ⟨fun r hr => readReg_finishCommand_of_mem s u w r (hregs ▸ hr), fun hi => ?_⟩⟩
    obtain ⟨b, hb⟩ := Option.isSome_iff_exists.mp (hdetected.mpr hi)
    simp [hb]


/-! ### What a host turn can change (R25, R28, R57) -/

/-- `t` has the parameters, held polynomial, results, verdict and code of `s`: what no host access writes (R57). -/
structure OutputsKept (s t : State) : Prop where
  params : t.params = s.params
  polyHeldLen : t.polyHeldLen = s.polyHeldLen
  polyHeld : t.polyHeld = s.polyHeld
  doutLen : t.doutLen = s.doutLen
  dout : t.dout = s.dout
  remRawLen : t.remRawLen = s.remRawLen
  rem : t.rem = s.rem
  quotLen : t.quotLen = s.quotLen
  quot : t.quot = s.quot
  errDetected : t.errDetected = s.errDetected
  errCode : t.errCode = s.errCode

theorem writeReg_outputsKept (s t : State) (r : Reg) (v : Word) (h : s.writeReg r v = some t) : OutputsKept s t := by
  rcases writeReg_some s t r v h with ⟨-, rfl⟩ | ⟨-, rfl⟩ | ⟨-, rfl⟩ | ⟨-, rfl⟩ | ⟨-, rfl⟩ | ⟨-, rfl⟩ | ⟨-, rfl⟩ |
    ⟨-, rfl⟩ | ⟨-, rfl⟩ <;> constructor <;> simp

theorem hostTurn_outputsKept (s t : State) (h : s.hostTurn = .next t) : OutputsKept s t := by
  rcases hostTurn_cases s t h with ⟨-, rfl⟩ | ⟨r, v, u, -, hw, rfl⟩ | ⟨r, n, rfl⟩ | ⟨n, v, rfl⟩ | ⟨n, rfl⟩
  case inr.inl => exact { writeReg_outputsKept s u r v hw with }
  all_goals constructor <;> rfl

/-- The pending command and CMD_OVR change at a write to CMD or to STATUS only. -/
theorem hostTurn_pending_cmdOvr (s t : State) (h : s.hostTurn = .next t) :
    (∃ v, HostWrites s 0x04 v ∧ t.pending = (s.issue v).pending ∧ t.cmdOvr = (s.issue v).cmdOvr) ∨
    (∃ v, HostWrites s 0x08 v ∧ t.pending = s.pending ∧ t.cmdOvr = (s.cmdOvr && !v.getLsbD 3)) ∨
    (t.pending = s.pending ∧ t.cmdOvr = s.cmdOvr) := by
  rcases hostTurn_cases s t h with ⟨-, rfl⟩ | ⟨r, v, u, hh, hw, rfl⟩ | ⟨r, n, rfl⟩ | ⟨n, v, rfl⟩ | ⟨n, rfl⟩
  case inr.inl =>
    rcases writeReg_some s u r v hw with ⟨rfl, rfl⟩ | ⟨rfl, rfl⟩ | ⟨-, rfl⟩ | ⟨-, rfl⟩ | ⟨-, rfl⟩ | ⟨-, rfl⟩ |
      ⟨-, rfl⟩ | ⟨-, rfl⟩ | ⟨-, rfl⟩
    · exact .inl ⟨v, hh, rfl, rfl⟩
    · exact .inr (.inl ⟨v, hh, rfl, rfl⟩)
    all_goals exact .inr (.inr ⟨rfl, rfl⟩)
  all_goals exact .inr (.inr ⟨rfl, rfl⟩)

/-- In the host's turn a line that writes a register which takes the write, however the line is written (30_encoding.md R75). -/
theorem step_of_hostWrites (s u : State) (r : Reg) (v : Word) (hn : s.nextTurn = .host) (hh : HostWrites s r.offset v)
    (hw : s.popTurn.writeReg r v = some u) : step s = .next u.nextLine := by
  have hplatform : afterWrite (s.popTurn.platformWrite (s.params.base + r.offset) 4 v) = .next u.nextLine :=
    hostOp_wr s.popTurn u r v hw
  obtain ⟨l, hl, ho⟩ := hh
  rw [step_of_line s l hn hl]
  rcases ho with ho | ⟨n, ho, hv⟩ | ho <;> rw [ho]
  · exact hplatform
  · subst hv
    exact hplatform
  · exact hplatform

/-- Every step keeps the parameters (00_scope.md R6 to R9). -/
theorem step_params (s t : State) (h : step s = .next t) : t.params = s.params := by
  rcases step_cases s t h with ⟨-, hh⟩ | ⟨hn, -⟩ | ⟨-, rfl⟩
  · exact (hostTurn_outputsKept _ t hh).params
  · rw [step_of_engine s t hn h]
    exact (complete_frame s.popTurn commandResult).2.1
  · rfl

/-- Settles O28: CAP is a view of the parameters, which no step changes. -/
theorem capReportsTheParameters : Obligations.CapReportsTheParameters := by
  refine ⟨fun s hwf => ⟨_, memRead_offset s .cap, capWord_fields s.params hwf⟩, fun s v => ?_, fun s t h => ?_⟩
  · exact ⟨_, memWrite_of_none s .cap v rfl⟩
  · have hp := step_params s t h
    exact ⟨congrArg capWord hp, hp⟩

/-- With nothing pending, exactly a CMD write issues a command. -/
theorem step_pending_of_none (s t : State) (h : step s = .next t) (hp : s.pending = none) :
    t.pending ≠ none ↔ s.nextTurn = .host ∧ ∃ v, HostWrites s 0x04 v := by
  constructor
  · intro ht
    rcases step_cases s t h with ⟨hn, hh⟩ | ⟨-, he⟩ | ⟨-, rfl⟩
    · rcases hostTurn_pending_cmdOvr _ t hh with ⟨v, hv, -, -⟩ | ⟨v, -, hpt, -⟩ | ⟨hpt, -⟩
      · exact ⟨hn, v, hv⟩
      · exact absurd (hpt.trans hp) ht
      · exact absurd (hpt.trans hp) ht
    · exact absurd (engineTurn_pending_schedule _ t he).1 ht
    · exact absurd rfl ht
  · rintro ⟨hn, v, hv⟩
    have hs := step_of_hostWrites s (s.popTurn.issue v) .cmd v hn hv rfl
    obtain rfl := Host.Outcome.next.inj (hs.symm.trans h)
    simp [issue_of_none s.popTurn v hp]

/-- With a command pending, exactly its Complete step or a reset leaves none pending. -/
theorem step_pending_of_some (s t : State) (snap : Snapshot) (h : step s = .next t) (hp : s.pending = some snap) :
    t.pending = none ↔ s.nextTurn = .engine ∨ s.nextTurn = .reset := by
  rcases step_cases s t h with ⟨hn, hh⟩ | ⟨hn, he⟩ | ⟨hn, rfl⟩
  · have hkept : t.pending = some snap := by
      rcases hostTurn_pending_cmdOvr _ t hh with ⟨v, -, hpt, -⟩ | ⟨v, -, hpt, -⟩ | ⟨hpt, -⟩
      · rw [hpt, issue_of_some s.popTurn v snap hp]
        exact hp
      · exact hpt.trans hp
      · exact hpt.trans hp
    simp [hn, hkept]
  · simp [hn, (engineTurn_pending_schedule _ t he).1]
  · simp [hn]

/-- Settles O30: BUSY is whether a command is pending, and the pending slot is followed over each agent's turn. -/
theorem busyFollowsThePendingCommand : Obligations.BusyFollowsThePendingCommand := by
  intro s t h
  refine ⟨?_, step_pending_of_none s t h, fun hp => ?_⟩
  · rw [← busy_iff, ← (statusWord_bits s).1]
    rfl
  · obtain ⟨snap, hs⟩ := Option.ne_none_iff_exists'.mp hp
    exact step_pending_of_some s t snap h hs

/-- CMD_OVR is set exactly by a CMD write that is dropped (R28). -/
theorem step_cmdOvr_set (s t : State) (h : step s = .next t) (hc : s.cmdOvr = false) :
    t.cmdOvr = true ↔ s.nextTurn = .host ∧ s.pending ≠ none ∧ ∃ v, HostWrites s 0x04 v := by
  constructor
  · intro ht
    rcases step_cases s t h with ⟨hn, hh⟩ | ⟨hn, -⟩ | ⟨-, rfl⟩
    · rcases hostTurn_pending_cmdOvr _ t hh with ⟨v, hv, -, hct⟩ | ⟨v, -, -, hct⟩ | ⟨-, hct⟩
      · refine ⟨hn, fun hp => ?_, v, hv⟩
        simp [issue_of_none s.popTurn v hp, hc, ht] at hct
      · simp [hc, ht] at hct
      · simp [hc, ht] at hct
    · rw [step_of_engine s t hn h, (complete_frame _ _).1, popTurn_cmdOvr, hc] at ht
      cases ht
    · cases ht
  · rintro ⟨hn, hp, v, hv⟩
    obtain ⟨snap, hs⟩ := Option.ne_none_iff_exists'.mp hp
    have hstep := step_of_hostWrites s (s.popTurn.issue v) .cmd v hn hv rfl
    obtain rfl := Host.Outcome.next.inj (hstep.symm.trans h)
    simp [issue_of_some s.popTurn v snap hs]

/-- CMD_OVR is cleared exactly by a reset or by a STATUS write with bit 3 = 1 (R28, R30). -/
theorem step_cmdOvr_clear (s t : State) (h : step s = .next t) (hc : s.cmdOvr = true) :
    t.cmdOvr = false ↔
      s.nextTurn = .reset ∨ (s.nextTurn = .host ∧ ∃ v, HostWrites s 0x08 v ∧ v.getLsbD 3 = true) := by
  constructor
  · intro ht
    rcases step_cases s t h with ⟨hn, hh⟩ | ⟨hn, -⟩ | ⟨hn, -⟩
    · rcases hostTurn_pending_cmdOvr _ t hh with ⟨v, -, -, hct⟩ | ⟨v, hv, -, hct⟩ | ⟨-, hct⟩
      · have hset : (s.popTurn.issue v).cmdOvr = true := by
          unfold State.issue
          split
          · rfl
          · exact hc
        rw [ht, hset] at hct
        cases hct
      · rw [ht, popTurn_cmdOvr, hc] at hct
        exact .inr ⟨hn, v, hv, by simpa using hct.symm⟩
      · rw [ht, popTurn_cmdOvr, hc] at hct
        cases hct
    · rw [step_of_engine s t hn h, (complete_frame _ _).1, popTurn_cmdOvr, hc] at ht
      cases ht
    · exact .inl hn
  · rintro (hn | ⟨hn, v, hv, hbit⟩)
    · rcases step_cases s t h with ⟨hh, -⟩ | ⟨he, -⟩ | ⟨-, rfl⟩
      · rw [hn] at hh; cases hh
      · rw [hn] at he; cases he
      · rfl
    · have hstep := step_of_hostWrites s (s.popTurn.writeStatus v) .status v hn hv rfl
      obtain rfl := Host.Outcome.next.inj (hstep.symm.trans h)
      rw [nextLine_cmdOvr, writeStatus_cmdOvr, hbit, Bool.not_true, Bool.and_false]

/-- Settles O37: CMD_OVR is followed over each agent's turn, and the CMD and STATUS writes are run. -/
theorem cmdOvrIsStickyUntilCleared : Obligations.CmdOvrIsStickyUntilCleared :=
  fun s t h => ⟨step_cmdOvr_set s t h, step_cmdOvr_clear s t h⟩

/-! ### The verdict and the code (R27, R29) -/

theorem verdict_eq_decide (r : BitSeq) : verdict r = decide (true ∈ r) := by
  rw [verdict, Bool.eq_iff_iff, List.any_eq_true, decide_eq_true_iff]
  simp

/-- A word with the fields of a command is that command's word (30_encoding.md R70, R71). -/
theorem eq_encode_of_decode (w : Word) (i : Instr) (h : decode w = .command i) : w = encode i := by
  have hfields : w = rsvdField w ++ opField w := by
    refine BitVec.eq_of_getLsbD_eq fun k hk => ?_
    rw [BitVec.getLsbD_append]
    by_cases h4 : k < 4
    · simp [h4, opField]
    · simp [h4, rsvdField, show k - 4 < 28 by omega, show 4 + (k - 4) = k by omega]
  unfold decode at h
  split_ifs at h with hr h1 h2 h3 h4 <;> cases h <;> rw [hfields, not_not.mp hr]
  · rw [h1]; rfl
  · rw [h2]; rfl
  · rw [h3]; rfl
  · rw [h4]; rfl

/-- A Complete step that writes ERR_DETECTED is a DECODE that succeeds. -/
theorem commandResult_writes_verdict (p : Params) (snap : Snapshot) (w : Writes) (h : commandResult p snap = .ok w)
    (hw : w.errDetected ≠ none) : snap.word = 0x00000004#32 := by
  obtain ⟨i, hd, hrun⟩ := commandResult_ok p snap w h
  have hi : i = .decode := (runOf_ok_regs i p snap w hrun).2.mp (Option.isSome_iff_ne_none.mpr hw)
  rw [eq_encode_of_decode snap.word i hd, hi]
  rfl

/-- In the engine's turn, what a pending command leaves: a failure with its error or a success with its writes. -/
theorem step_of_engine_pending (s t : State) (snap : Snapshot) (hn : s.nextTurn = .engine) (hp : s.pending = some snap)
    (h : step s = .next t) :
    (∃ e, commandResult s.params snap = .error e ∧ t = s.popTurn.failCommand e) ∨
    (∃ w, commandResult s.params snap = .ok w ∧ t = s.popTurn.finishCommand w) := by
  rw [step_of_engine s t hn h]
  cases hr : commandResult s.params snap with
  | error e => exact .inl ⟨e, rfl, complete_of_error s.popTurn _ snap e hp hr⟩
  | ok w => exact .inr ⟨w, rfl, complete_of_ok s.popTurn _ snap w hp hr⟩

/-- Reset's turn is the reset of the block (R250). -/
theorem step_of_reset (s t : State) (hn : s.nextTurn = .reset) (h : step s = .next t) : t = s.popTurn.resetBlock := by
  simp only [step, hn] at h
  exact (Host.Outcome.next.inj h).symm

/-- The host's turn keeps what no host access writes. -/
theorem step_outputsKept_of_host (s t : State) (hn : s.nextTurn = .host) (h : step s = .next t) :
    OutputsKept s.popTurn t := by
  simp only [step, hn] at h
  exact hostTurn_outputsKept _ t h

/-- A DECODE that completes with code 0 leaves the verdict of the raw remainder. -/
theorem errDetected_of_decode (s t : State) (snap : Snapshot) (hn : s.nextTurn = .engine) (hp : s.pending = some snap)
    (hw : snap.word = 0x00000004#32) (h : step s = .next t) (h0 : t.errCode = 0#4) :
    t.errDetected = decide (true ∈ rawRemainder snap.dinSeq snap.heldSeq) := by
  have hd : decode snap.word = .command .decode := by rw [hw]; decide
  rcases step_of_engine_pending s t snap hn hp h with ⟨e, -, rfl⟩ | ⟨w, hr, rfl⟩
  · exact absurd h0 (errorCode_ne_zero e)
  · rw [commandResult_of_command _ snap _ hd] at hr
    obtain ⟨-, rfl⟩ := decodeCommand_ok _ snap w hr
    exact verdict_eq_decide _

/-- Where ERR_DETECTED changes, a reset or a DECODE that succeeds did it. -/
theorem step_of_errDetected_ne (s t : State) (h : step s = .next t) (hne : t.errDetected ≠ s.errDetected) :
    s.nextTurn = .reset ∨
      (s.nextTurn = .engine ∧ ∃ snap, s.pending = some snap ∧ snap.word = 0x00000004#32 ∧ t.errCode = 0#4) := by
  cases hn : s.nextTurn with
  | reset => exact .inl rfl
  | host => exact absurd (step_outputsKept_of_host s t hn h).errDetected hne
  | engine =>
    refine .inr ⟨rfl, ?_⟩
    cases hp : s.pending with
    | none =>
      rw [step_of_engine_idle s hn hp] at h
      obtain rfl := Host.Outcome.next.inj h
      exact absurd rfl hne
    | some snap =>
      rcases step_of_engine_pending s t snap hn hp h with ⟨e, -, rfl⟩ | ⟨w, hr, rfl⟩
      · exact absurd rfl hne
      · refine ⟨snap, rfl, commandResult_writes_verdict _ snap w hr fun hnone => hne ?_, rfl⟩
        simp [hnone]

/-- Settles O38: reset, the DECODE's writes, and that nothing else writes ERR_DETECTED. -/
theorem errDetectedIsTheLastVerdict : Obligations.ErrDetectedIsTheLastVerdict := by
  intro s t h
  refine ⟨fun hn => ?_, fun snap hn hp hw h0 => errDetected_of_decode s t snap hn hp hw h h0, step_of_errDetected_ne s t h⟩
  rw [step_of_reset s t hn h]
  rfl

/-- Settles O39, by the agent whose turn it is. -/
theorem errCodeIsWrittenAtComplete : Obligations.ErrCodeIsWrittenAtComplete := by
  intro s t h
  refine ⟨fun snap hn hp => ?_, fun hn hp => ?_, fun hn => ?_, fun hn => ?_⟩
  · rcases step_of_engine_pending s t snap hn hp h with ⟨e, hr, rfl⟩ | ⟨w, hr, rfl⟩ <;> rw [hr] <;> rfl
  · rw [step_of_engine_idle s hn hp] at h
    obtain rfl := Host.Outcome.next.inj h
    rfl
  · exact (step_outputsKept_of_host s t hn h).errCode
  · rw [step_of_reset s t hn h]
    rfl

/-! ### The length of a remainder (41_divider.md R123, R124) -/

/-- After a strip nothing is left, or the leading element is 1 (R122). -/
theorem strip_eq_nil_or_head?_eq_true (w : BitSeq) : strip w = [] ∨ (strip w).head? = some true := by
  induction w with
  | nil => exact .inl rfl
  | cons b w ih =>
    cases b with
    | false => exact ih
    | true => exact .inr rfl

/-- An XOR step keeps the length (R121). -/
@[simp] theorem xorStep_length (p w : BitSeq) : (xorStep p w).length = w.length := by
  induction p generalizing w with
  | nil => simp
  | cons b p ih =>
    cases w with
    | nil => rfl
    | cons x w => simp [ih]

/-- From a working sequence that is empty or begins with 1, each pass shortens it, so as many passes as it has elements reach the
exit of the loop. -/
theorem divLoop_length_lt (n : Nat) (p w : BitSeq) (hp : p.head? = some true) (hw : w = [] ∨ w.head? = some true)
    (hn : w.length ≤ n) : (divLoop n p w).length < p.length := by
  obtain ⟨p', rfl⟩ : ∃ p', p = true :: p' := List.head?_eq_some_iff.mp hp
  induction n generalizing w with
  | zero =>
    obtain rfl := List.length_eq_zero_iff.mp (Nat.le_zero.mp hn)
    exact Nat.succ_pos _
  | succ n ih =>
    rw [divLoop_succ]
    split
    · rename_i hlen
      rcases hw with rfl | hw
      · cases hlen
      · obtain ⟨w', rfl⟩ := List.head?_eq_some_iff.mp hw
        have hpass : strip (xorStep (true :: p') (true :: w')) = strip (xorStep p' w') := rfl
        have hshorter : (strip (xorStep p' w')).length ≤ w'.length := by
          simpa using strip_length_le (xorStep p' w')
        rw [hpass]
        exact ih _ (strip_eq_nil_or_head?_eq_true _) (by simp at hn; omega)
    · omega

/-- The raw remainder is shorter than a divisor that begins with 1: the first pass strips the dividend, and the bound on the passes
leaves one for each element after it. -/
theorem rawRemainder_length_lt (d p : BitSeq) (hp : p.head? = some true) : (rawRemainder d p).length < p.length := by
  rw [rawRemainder, passBound, divLoop_succ]
  split
  · refine divLoop_length_lt _ p _ hp (strip_eq_nil_or_head?_eq_true _) ?_
    simpa using strip_length_le (xorStep p d)
  · omega

/-- A valid polynomial's sequence begins with 1 (40_polynomial.md R101). -/
theorem heldSeq_head? (p : Params) (snap : Snapshot) (h : ValidPoly p snap.heldLen snap.held) :
    snap.heldSeq.head? = some true := by
  obtain ⟨htwo, -, htop, -⟩ := h
  obtain ⟨k, hk⟩ := Nat.exists_eq_succ_of_ne_zero (show snap.heldLen.toNat ≠ 0 by omega)
  rw [Snapshot.heldSeq, hk, seqOf_succ]
  rw [hk] at htop
  exact congrArg some htop

/-- The raw remainder by a held polynomial has at most `c = m - 1` elements (R124). -/
theorem rawRemainder_held_length (p : Params) (snap : Snapshot) (d : BitSeq) (h : ValidPoly p snap.heldLen snap.held) :
    (rawRemainder d snap.heldSeq).length ≤ snap.heldLen.toNat - 1 := by
  have hlt := rawRemainder_length_lt d snap.heldSeq (heldSeq_head? p snap h)
  rw [Snapshot.heldSeq, seqOf_length] at hlt
  exact Nat.le_sub_one_of_lt hlt

theorem placeholderQuotient_length_le (z : QuotZeroRem) (d : BitSeq) (k : Nat) :
    (placeholderQuotient z d k).length ≤ d.length := by
  unfold placeholderQuotient
  split <;> simp

theorem fixedWidth_length (c : Nat) (r : BitSeq) (h : r.length ≤ c) : (fixedWidth c r).length = c := by
  rw [fixedWidth, List.length_append, zeros_length]
  omega

/-! ### Results fit their registers (R35 to R37) -/

/-- The length and the value of a sequence, as a register pair: within the bound, and no bit above the length. -/
def SeqFits {n : Nat} (bound : Nat) (len : Word) (v : BitVec n) : Prop := len.toNat ≤ bound ∧ v.toNat < 2 ^ len.toNat

/-- A sequence within a bound below `2^32` fits the pair it is written to. -/
theorem seqFits_of_length_le (n bound : Nat) (r : BitSeq) (h : r.length ≤ bound) (hb : bound < 2 ^ 32) :
    SeqFits bound (word32 r.length) (BitVec.ofNat n (val r)) := by
  have hlen : (word32 r.length).toNat = r.length := by
    rw [word32, BitVec.toNat_ofNat, Nat.mod_eq_of_lt (by omega)]
  refine ⟨hlen.trans_le h, ?_⟩
  rw [hlen, BitVec.toNat_ofNat]
  exact (Nat.mod_le _ _).trans_lt (val_lt r)

/-- Writes whose sequences fit the result registers. -/
structure WritesFit (p : Params) (w : Writes) : Prop where
  dout : ∀ x, w.dout = some x → SeqFits p.wMax x.1 x.2
  rem : ∀ x, w.rem = some x → SeqFits 31 x.1 x.2
  quot : ∀ x, w.quot = some x → SeqFits p.wMax x.1 x.2

theorem params_bounds (p : Params) (h : p.wf = true) : p.polyMax ≤ 32 ∧ p.wMax ≤ 128 :=
  (capWord_toNat p h).2

/-- REM and REM_RAW_LEN hold any remainder by a held polynomial (R36). -/
theorem remWrite_fits (p : Params) (snap : Snapshot) (d : BitSeq) (hwf : p.wf = true)
    (h : ValidPoly p snap.heldLen snap.held) :
    SeqFits 31 (remWrite (rawRemainder d snap.heldSeq)).1 (remWrite (rawRemainder d snap.heldSeq)).2 := by
  have hr := rawRemainder_held_length p snap d h
  have hpoly := (params_bounds p hwf).1
  have hm := h.2.1
  exact seqFits_of_length_le 32 31 _ (by omega) (by decide)

/-- Where the operands are there, the data fit W_MAX and the held polynomial is valid. -/
theorem seqOperands_ok_bounds (p : Params) (snap : Snapshot) (hheld : HeldOk p snap.heldLen snap.held)
    (h : seqOperands p snap = .ok (snap.dinSeq, snap.heldSeq)) :
    snap.dinSeq.length ≤ p.wMax ∧ ValidPoly p snap.heldLen snap.held := by
  obtain ⟨hlen, -, hne, -, -⟩ := seqOperands_ok p snap _ _ h
  refine ⟨?_, hheld.resolve_left fun h0 => hne h0.1⟩
  rwa [Snapshot.dinSeq, seqOf_length]

/-- What a command writes fits, if its snapshot holds a polynomial that R44 allows. -/
theorem runOf_ok_writesFit (i : Instr) (p : Params) (snap : Snapshot) (w : Writes) (hwf : p.wf = true)
    (hheld : HeldOk p snap.heldLen snap.held) (h : runOf i p snap = .ok w) : WritesFit p w := by
  have hmax := (params_bounds p hwf).2
  cases i with
  | setpoly =>
    obtain ⟨-, rfl⟩ := setPoly_ok p snap w h
    constructor <;> rintro x ⟨⟩
  | divide =>
    obtain ⟨hops, q, hq, rfl⟩ := divideCommand_ok p snap w h
    obtain ⟨hlen, hvalid⟩ := seqOperands_ok_bounds p snap hheld hops
    have hqlen : q.length ≤ p.wMax := hq ▸ (placeholderQuotient_length_le _ _ _).trans hlen
    constructor <;> rintro x ⟨⟩
    · exact remWrite_fits p snap _ hwf hvalid
    · exact seqFits_of_length_le 128 _ q hqlen (by omega)
  | encode =>
    obtain ⟨hops, c, r, hc, hr, hlen, rfl⟩ := encodeCommand_ok p snap w h
    obtain ⟨-, hvalid⟩ := seqOperands_ok_bounds p snap hheld hops
    have hwidth : (fixedWidth c r).length = c :=
      fixedWidth_length c r (by rw [hr, hc]; exact rawRemainder_held_length p snap _ hvalid)
    have hcode : snap.dinSeq.length + c = (snap.dinSeq ++ fixedWidth c r).length := by
      rw [List.length_append, hwidth]
    constructor <;> rintro x ⟨⟩
    · rw [hcode] at hlen ⊢
      exact seqFits_of_length_le 128 _ _ hlen (by omega)
    · rw [hr]
      exact remWrite_fits p snap _ hwf hvalid
  | decode =>
    obtain ⟨hops, rfl⟩ := decodeCommand_ok p snap w h
    obtain ⟨-, hvalid⟩ := seqOperands_ok_bounds p snap hheld hops
    constructor <;> rintro x ⟨⟩
    exact remWrite_fits p snap _ hwf hvalid

/-- A success whose writes fit keeps the results well-formed. -/
theorem finishCommand_resultsOk (s : State) (w : Writes) (hs : ResultsOk s) (hw : WritesFit s.params w) :
    ResultsOk (s.finishCommand w) := by
  obtain ⟨hdout, hrem, hquot⟩ := hs
  refine ⟨?_, ?_, ?_⟩
  · cases hd : w.dout with
    | none => simpa [hd] using hdout
    | some x => simpa [hd, SeqFits] using hw.dout x hd
  · cases hr : w.rem with
    | none => simpa [hr] using hrem
    | some x => simpa [hr, SeqFits] using hw.rem x hr
  · cases hq : w.quot with
    | none => simpa [hq] using hquot
    | some x => simpa [hq, SeqFits] using hw.quot x hq

/-! ### The held polynomial and the invariant (R44) -/

/-- What a command writes to the held polynomial is a valid polynomial. -/
theorem runOf_ok_validPoly (i : Instr) (p : Params) (snap : Snapshot) (w : Writes) (h : runOf i p snap = .ok w)
    (x : Word × Word) (hx : w.polyHeld = some x) : ValidPoly p x.1 x.2 := by
  cases i with
  | setpoly => obtain ⟨hvalid, rfl⟩ := setPoly_ok p snap w h; cases hx; exact hvalid
  | divide => obtain ⟨-, q, -, rfl⟩ := divideCommand_ok p snap w h; cases hx
  | encode => obtain ⟨-, c, r, -, -, -, rfl⟩ := encodeCommand_ok p snap w h; cases hx
  | decode => obtain ⟨-, rfl⟩ := decodeCommand_ok p snap w h; cases hx

/-- A success keeps the held polynomial empty or valid. -/
theorem finishCommand_heldOk (s : State) (w : Writes) (hs : HeldOk s.params s.polyHeldLen s.polyHeld)
    (hw : ∀ x, w.polyHeld = some x → ValidPoly s.params x.1 x.2) :
    HeldOk s.params (s.finishCommand w).polyHeldLen (s.finishCommand w).polyHeld := by
  cases hx : w.polyHeld with
  | none => simpa [hx] using hs
  | some x => exact .inr (by simpa [hx] using hw x hx)

/-- A Complete step keeps the held polynomial empty or valid. -/
theorem complete_heldOk (s : State) (hs : HeldOk s.params s.polyHeldLen s.polyHeld) :
    HeldOk s.params (s.complete commandResult).polyHeldLen (s.complete commandResult).polyHeld := by
  rcases complete_cases s commandResult with ⟨-, hc⟩ | ⟨snap, e, -, -, hc⟩ | ⟨snap, w, -, hr, hc⟩ <;> rw [hc]
  · exact hs
  · exact hs
  · obtain ⟨i, -, hrun⟩ := commandResult_ok _ snap w hr
    exact finishCommand_heldOk s w hs (runOf_ok_validPoly i _ snap w hrun)

theorem step_heldOk (s t : State) (hs : HeldOk s.params s.polyHeldLen s.polyHeld) (h : step s = .next t) :
    HeldOk t.params t.polyHeldLen t.polyHeld := by
  rw [step_params s t h]
  cases hn : s.nextTurn with
  | host =>
    have hk := step_outputsKept_of_host s t hn h
    rw [hk.polyHeldLen, hk.polyHeld]
    exact hs
  | engine =>
    rw [step_of_engine s t hn h]
    exact complete_heldOk s.popTurn hs
  | reset =>
    rw [step_of_reset s t hn h]
    exact .inl ⟨rfl, rfl⟩

/-- Settles O46: only a SETPOLY that succeeds writes the held polynomial, and it has checked its candidate. -/
theorem heldPolynomialStaysEmptyOrValid : Obligations.HeldPolynomialStaysEmptyOrValid :=
  ⟨fun _ => .inl ⟨rfl, rfl⟩, step_heldOk⟩

/-- A register write does not touch the host's program, place and temporaries. -/
theorem writeReg_host (s t : State) (r : Reg) (v : Word) (h : s.writeReg r v = some t) : t.host = s.host := by
  rcases writeReg_some s t r v h with ⟨-, rfl⟩ | ⟨-, rfl⟩ | ⟨-, rfl⟩ | ⟨-, rfl⟩ | ⟨-, rfl⟩ | ⟨-, rfl⟩ | ⟨-, rfl⟩ |
    ⟨-, rfl⟩ | ⟨-, rfl⟩ <;> simp

/-- A host turn keeps the canonical form of the temporaries. -/
theorem hostTurn_temps (s t : State) (hs : tempsWf s.host.temps = true) (h : s.hostTurn = .next t) :
    tempsWf t.host.temps = true := by
  rcases hostTurn_cases s t h with ⟨-, rfl⟩ | ⟨r, v, u, -, hw, rfl⟩ | ⟨r, n, rfl⟩ | ⟨n, v, rfl⟩ | ⟨n, rfl⟩
  · exact hs
  · rw [nextLine_host, writeReg_host s u r v hw]
    exact hs
  · exact tempsWf_tempWrite _ hs _ _
  · exact tempsWf_tempWrite _ hs _ _
  · exact hs

/-- The snapshot an issue takes is of the held polynomial as it stands. -/
theorem issue_pendingOk (s : State) (v : Word) (hs : PendingOk s) (hheld : HeldOk s.params s.polyHeldLen s.polyHeld)
    (snap : Snapshot) (h : (s.issue v).pending = some snap) : HeldOk s.params snap.heldLen snap.held := by
  cases hp : s.pending with
  | none =>
    rw [issue_of_none s v hp] at h
    obtain rfl := Option.some.inj h
    exact hheld
  | some snap' =>
    rw [issue_of_some s v snap' hp] at h
    exact hs snap h

theorem hostTurn_inv (s t : State) (hs : Inv s) (h : s.hostTurn = .next t) : Inv t := by
  have hk := hostTurn_outputsKept s t h
  refine ⟨by rw [hk.params]; exact hs.params, ?_, fun snap hsnap => ?_, ?_, ?_, hostTurn_temps s t hs.temps h⟩
  · rw [hk.params, hk.polyHeldLen, hk.polyHeld]
    exact hs.held
  · rw [hk.params]
    rcases hostTurn_pending_cmdOvr s t h with ⟨v, -, hp, -⟩ | ⟨v, -, hp, -⟩ | ⟨hp, -⟩ <;> rw [hp] at hsnap
    · exact issue_pendingOk s v hs.pending hs.held snap hsnap
    · exact hs.pending snap hsnap
    · exact hs.pending snap hsnap
  · rw [ResultsOk, hk.params, hk.doutLen, hk.dout, hk.remRawLen, hk.rem, hk.quotLen, hk.quot]
    exact hs.results
  · rw [hk.errCode]
    exact hs.errCode

/-- A Complete step keeps the invariant: it leaves nothing pending, and what it writes fits. -/
theorem complete_inv (s : State) (hs : Inv s) : Inv (s.complete commandResult) := by
  have hheld := complete_heldOk s hs.held
  rcases complete_cases s commandResult with ⟨-, hc⟩ | ⟨snap, e, -, -, hc⟩ | ⟨snap, w, hp, hr, hc⟩ <;> rw [hc] at hheld ⊢
  · exact hs
  · exact ⟨hs.params, hheld, by rintro snap ⟨⟩, hs.results, errorCode_le_four e, hs.temps⟩
  · obtain ⟨i, -, hrun⟩ := commandResult_ok _ snap w hr
    have hfit := runOf_ok_writesFit i _ snap w hs.params (hs.pending snap hp) hrun
    exact ⟨hs.params, hheld, by rintro snap ⟨⟩, finishCommand_resultsOk s w hs.results hfit, Nat.zero_le 4, hs.temps⟩

theorem resetBlock_inv (s : State) (hs : Inv s) : Inv s.resetBlock :=
  ⟨hs.params, .inl ⟨rfl, rfl⟩, by rintro snap ⟨⟩, by simp [ResultsOk, quadValue, Quad.zero], Nat.zero_le 4, hs.temps⟩

theorem popTurn_inv (s : State) (hs : Inv s) : Inv s.popTurn :=
  ⟨hs.params, hs.held, hs.pending, hs.results, hs.errCode, hs.temps⟩

/-- Settles O47, by the agent whose turn it is. -/
theorem everyStepKeepsTheInvariant : Obligations.EveryStepKeepsTheInvariant := by
  intro s t hs h
  have hpop := popTurn_inv s hs
  rcases step_cases s t h with ⟨-, hh⟩ | ⟨hn, -⟩ | ⟨-, rfl⟩
  · exact hostTurn_inv _ t hpop hh
  · rw [step_of_engine s t hn h]
    exact complete_inv _ hpop
  · exact resetBlock_inv _ hpop

end Sys2Proof.Proofs
end

section
/-! PROOFS. The statements of spec/20_memory.md: the accesses of the register window (R50 to R55), the input registers (R58), and
what the host reaches of a pending command and of the results (R57, R60, R61). -/

namespace Sys2Proof.Proofs

open Sys2Proof.Machine Sys2Proof.Laws

/-! ### The words of the four-word registers (R55) -/

/-- Bits `[32j+31:32j]` of the value of four words are word `j`. -/
theorem extractLsb'_quadValue (q : Quad) :
    (quadValue q).extractLsb' 0 32 = q.w0 ∧ (quadValue q).extractLsb' 32 32 = q.w1 ∧
      (quadValue q).extractLsb' 64 32 = q.w2 ∧ (quadValue q).extractLsb' 96 32 = q.w3 :=
  have h := quadOf_quadValue q
  ⟨congrArg Quad.w0 h, congrArg Quad.w1 h, congrArg Quad.w2 h, congrArg Quad.w3 h⟩

/-- The four words of DIN, DOUT and QUOT stand side by side from the first one's offset (10_state.md R21). -/
theorem memRead_quad (s : State) (base : Nat) (q : Quad)
    (h : (base, q) ∈ [(0x30, s.din), (0x50, s.dout), (0x70, s.quot)]) :
    s.memRead base 4 = .ok q.w0 ∧ s.memRead (base + 4) 4 = .ok q.w1 ∧
      s.memRead (base + 8) 4 = .ok q.w2 ∧ s.memRead (base + 12) 4 = .ok q.w3 := by
  have read := memRead_offset s
  simp only [List.mem_cons, Prod.mk.injEq, List.not_mem_nil, or_false] at h
  rcases h with ⟨rfl, rfl⟩ | ⟨rfl, rfl⟩ | ⟨rfl, rfl⟩
  · exact ⟨read .din0, read .din1, read .din2, read .din3⟩
  · exact ⟨read .dout0, read .dout1, read .dout2, read .dout3⟩
  · exact ⟨read .quot0, read .quot1, read .quot2, read .quot3⟩

/-- The word of DIN, DOUT or QUOT at `base + 4j` holds bits `[32j+31:32j]` of the 128-bit value. -/
theorem memRead_quadValue (s : State) (base : Nat) (q : Quad)
    (h : (base, q) ∈ [(0x30, s.din), (0x50, s.dout), (0x70, s.quot)]) (j : Nat) (hj : j < 4) :
    s.memRead (base + 4 * j) 4 = .ok ((quadValue q).extractLsb' (32 * j) 32) := by
  obtain ⟨r0, r1, r2, r3⟩ := memRead_quad s base q h
  obtain ⟨h0, h1, h2, h3⟩ := extractLsb'_quadValue q
  match j, hj with
  | 0, _ => rw [h0]; exact r0
  | 1, _ => rw [h1]; exact r1
  | 2, _ => rw [h2]; exact r2
  | 3, _ => rw [h3]; exact r3

/-- Bit `i` of a 128-bit value is bit `i mod 32` of its word `floor(i/32)`. -/
theorem getLsbD_extractLsb'_word (v : Wide) (i : Nat) :
    (v.extractLsb' (32 * (i / 32)) 32).getLsbD (i % 32) = v.getLsbD i := by
  rw [BitVec.getLsbD_extractLsb', Nat.div_add_mod]
  simp [Nat.mod_lt]

/-- The first element of a nonempty `seq_L(v)` is bit `L - 1`, and the last one bit 0. -/
theorem seqOf_ends (L v : Nat) (h : 1 ≤ L) :
    (seqOf L v).head? = some (v.testBit (L - 1)) ∧ (seqOf L v).getLast? = some (v.testBit 0) := by
  constructor
  · rw [List.head?_eq_getElem?, seqOf_getElem? L v 0 h, Nat.sub_zero]
  · rw [List.getLast?_eq_getElem?, seqOf_length, seqOf_getElem? L v (L - 1) (by omega), Nat.sub_self]

/-- Settles O27: the words are the slices of the value, and the ends of a sequence are its bits `L - 1` and 0. -/
theorem wordsOfSequenceRegisters : Obligations.WordsOfSequenceRegisters := by
  constructor
  · intro s j hj
    exact ⟨memRead_quadValue s 0x30 s.din (by simp) j hj, memRead_quadValue s 0x50 s.dout (by simp) j hj,
      memRead_quadValue s 0x70 s.quot (by simp) j hj⟩
  · intro s L base q hL hL' hq
    obtain ⟨hfirst, hlast⟩ := seqOf_ends L (quadValue q).toNat hL
    refine ⟨_, _, memRead_quadValue s base q hq ((L - 1) / 32) (by omega), memRead_quadValue s base q hq 0 (by omega), ?_, ?_⟩
    · rw [hfirst, getLsbD_extractLsb'_word, BitVec.getLsbD]
    · rw [hlast, ← BitVec.getLsbD, ← getLsbD_extractLsb'_word]

/-! ### Accesses at BASE (R50) -/

/-- An access at `BASE + off` is the access at window offset `off`, for a read. -/
theorem platformRead_base (s : State) (off size : Nat) (h : off < windowBytes) :
    s.platformRead (s.params.base + off) size = s.memRead off size := by
  simp [State.platformRead, windowOffset_base _ _ h]

/-- No address outside the 128 bytes reaches the window. -/
theorem windowOffset_outside (p : Params) (addr : Nat) (h : addr < p.base ∨ p.base + 128 ≤ addr) :
    windowOffset p addr = none := by
  rw [windowOffset, windowBytes, if_neg (by omega)]

/-- Settles O36: an access goes through `windowOffset`, which is known inside and outside the window. -/
theorem accessesReachTheWindowAtBase : Obligations.AccessesReachTheWindowAtBase := by
  refine fun s size v => ⟨fun off h => ⟨platformRead_base s off size h, platformWrite_base s off size v h⟩, fun addr h => ?_⟩
  simp [State.platformRead, State.platformWrite, windowOffset_outside s.params addr h]

/-! ### Host lines that access the window (R51 to R53) -/

/-- A line that reads `size` bytes at window offset `off` into `tN`: RD, or a read at the platform address. -/
def ReadsWindow (s : State) (op : HostOp) (off size n : Nat) : Prop :=
  op = .readAt (s.params.base + off) size n ∨ (size = 4 ∧ op = .rd off n)

/-- A line that writes `size` bytes of `v` at window offset `off`: WR, WRT, or a write at the platform address. -/
def WritesWindow (s : State) (op : HostOp) (off size : Nat) (v : Word) : Prop :=
  op = .writeAt (s.params.base + off) size v ∨ (size = 4 ∧ (op = .wr off v ∨ ∃ n, op = .wrt off n ∧ s.temp n = v))

/-- What such a read line does in the host's turn. -/
theorem step_of_readsWindow (s : State) (l : HostLine) (off size n : Nat) (hn : s.nextTurn = .host)
    (hl : s.host.program[s.host.pc]? = some l) (hoff : off < windowBytes) (ho : ReadsWindow s l.op off size n) :
    step s = s.popTurn.afterRead n (s.popTurn.memRead off size) := by
  rw [step_of_line s l hn hl, ← platformRead_base s.popTurn off size hoff]
  rcases ho with ho | ⟨rfl, ho⟩ <;> rw [ho] <;> rfl

/-- What such a write line does in the host's turn. -/
theorem step_of_writesWindow (s : State) (l : HostLine) (off size : Nat) (v : Word) (hn : s.nextTurn = .host)
    (hl : s.host.program[s.host.pc]? = some l) (hoff : off < windowBytes) (ho : WritesWindow s l.op off size v) :
    step s = afterWrite (s.popTurn.memWrite off size v) := by
  rw [step_of_line s l hn hl, ← platformWrite_base s.popTurn off size v hoff]
  rcases ho with ho | ⟨rfl, ho | ⟨n, ho, rfl⟩⟩ <;> rw [ho] <;> rfl

/-- An access of another size, misaligned, or at a reserved offset reaches no register (R51, R52). -/
theorem accessTarget_error (off size : Nat) (h : size ≠ 4 ∨ off % 4 ≠ 0 ∨ off ∈ reservedOffsets) :
    ∃ c, accessTarget off size = .error c := by
  cases ht : accessTarget off size with
  | error c => exact ⟨c, rfl⟩
  | ok r =>
    obtain ⟨hsize, rfl⟩ := (accessTarget_ok off size r).mp ht
    have hreserved : r.offset ∉ reservedOffsets := by cases r <;> decide
    rcases h with h | h | h
    · exact absurd hsize h
    · exact absurd (offset_bounds r).1 h
    · exact absurd h hreserved

/-- At every aligned offset of the window that is not reserved there is a register (R52). -/
theorem exists_offset_eq (off : Nat) (hoff : off < 128) (h4 : off % 4 = 0) (hr : off ∉ reservedOffsets) :
    ∃ r : Reg, off = r.offset := by
  have table : ∀ k < 32, 4 * k ∉ reservedOffsets → ∃ r ∈ allRegs, 4 * k = r.offset := by decide
  obtain ⟨k, rfl⟩ := Nat.dvd_of_mod_eq_zero h4
  exact (table k (by omega) hr).imp fun _ h => h.2

theorem memRead_of_error (s : State) (off size : Nat) (c : BusErrorCause) (h : accessTarget off size = .error c) :
    s.memRead off size = .error c := by
  simp [State.memRead, h]

theorem memWrite_of_error (s : State) (off size : Nat) (v : Word) (c : BusErrorCause)
    (h : accessTarget off size = .error c) : s.memWrite off size v = .error c := by
  simp [State.memWrite, h]

/-- Settles O34: a line of each kind is its access of the window, and a read of a register succeeds. -/
theorem onlyAlignedWordAccessesAtRegisters : Obligations.OnlyAlignedWordAccessesAtRegisters := by
  intro s l off size n v hn hl hoff ho
  constructor
  · intro hbad
    obtain ⟨c, hc⟩ := accessTarget_error off size hbad
    have read (hr : ReadsWindow s l.op off size n) : step s = .fault (.busError c) := by
      rw [step_of_readsWindow s l off size n hn hl hoff hr, memRead_of_error _ _ _ c hc, State.afterRead]
    have write (w : Word) (hw : WritesWindow s l.op off size w) : step s = .fault (.busError c) := by
      rw [step_of_writesWindow s l off size w hn hl hoff hw, memWrite_of_error _ _ _ _ c hc, afterWrite]
    refine ⟨c, ?_⟩
    rcases ho with ho | ho | ⟨h4, ho | ho | ho⟩
    · exact read (.inl ho)
    · exact write v (.inl ho)
    · exact read (.inr ⟨h4, ho⟩)
    · exact write v (.inr ⟨h4, .inl ho⟩)
    · exact write (s.temp n) (.inr ⟨h4, .inr ⟨n, ho, rfl⟩⟩)
  · intro h4 haligned hreserved hread
    obtain ⟨r, rfl⟩ := exists_offset_eq off hoff haligned hreserved
    subst h4
    have hr : ReadsWindow s l.op r.offset 4 n := hread.imp_right fun h => ⟨rfl, h⟩
    exact ⟨_, by rw [step_of_readsWindow s l _ 4 n hn hl hoff hr, memRead_offset, State.afterRead]⟩

/-! ### The register classes (R53, R58) -/

/-- The read-only registers (R53). -/
def readOnlyRegs : List Reg :=
  [.cap, .polyHeldLen, .polyHeld, .doutLen, .dout0, .dout1, .dout2, .dout3, .remRawLen, .rem, .quotLen,
   .quot0, .quot1, .quot2, .quot3]

/-- A register takes no write exactly when it is read-only. -/
theorem writeReg_eq_none_iff (s : State) (r : Reg) (v : Word) : s.writeReg r v = none ↔ r ∈ readOnlyRegs := by
  cases r <;> simp [State.writeReg, readOnlyRegs]

/-- A write to an input register stores the word whole, in that register only (R58). -/
theorem writeReg_of_input (s : State) (r : Reg) (v : Word) (h : r ∈ inputRegs) :
    ∃ t, s.writeReg r v = some t ∧ (∀ r', t.readReg r' = if r' = r then v else s.readReg r') ∧
      t.pending = s.pending ∧ t.params = s.params ∧ t.host = s.host ∧ t.schedule = s.schedule := by
  simp only [inputRegs, List.mem_cons, List.not_mem_nil, or_false] at h
  rcases h with rfl | rfl | rfl | rfl | rfl | rfl | rfl <;>
    exact ⟨_, rfl, fun r' => by cases r' <;> rfl, rfl, rfl, rfl, rfl⟩

/-- Settles O33: the input registers' law, and that a read line is a register read into a temporary. -/
theorem inputRegistersStoreAndReadsHaveNoEffect : Obligations.InputRegistersStoreAndReadsHaveNoEffect := by
  constructor
  · intro s r v h
    obtain ⟨t, hw, hread, hframe⟩ := writeReg_of_input s r v h
    refine ⟨t, memWrite_of_some s t r v hw, ?_, fun r' hne => ?_, hframe⟩
    · rw [memRead_offset, hread r, if_pos rfl]
    · rw [hread r', if_neg hne]
  · intro s l r n hn hl ho
    have hr : ReadsWindow s l.op r.offset 4 n := ho.symm.imp_right fun h => ⟨rfl, h⟩
    rw [step_of_readsWindow s l _ 4 n hn hl (offset_bounds r).2 hr, memRead_offset, readReg_popTurn]
    rfl

/-- Settles O35: the offsets named are those of the read-only and of the input registers. -/
theorem accessRulesOfRegisterClasses : Obligations.AccessRulesOfRegisterClasses := by
  refine ⟨fun s off v hoff => ?_, fun s => memRead_offset s .cmd, fun s v => ⟨_, memWrite_of_some s _ .status v rfl⟩,
    fun s off v hoff => ?_⟩
  · obtain ⟨r, hr, rfl⟩ := List.mem_map.mp (show off ∈ readOnlyRegs.map Reg.offset from hoff)
    have hwrite (u : State) : u.memWrite r.offset 4 v = .error .readOnly :=
      memWrite_of_none u r v ((writeReg_eq_none_iff u r v).mpr hr)
    refine ⟨hwrite s, fun l hn hl ho => ?_⟩
    rw [step_of_writesWindow s l _ 4 v hn hl (offset_bounds r).2 (.inr ⟨rfl, .inl ho⟩), hwrite, afterWrite]
  · obtain ⟨r, hr, rfl⟩ := List.mem_map.mp (show off ∈ inputRegs.map Reg.offset from hoff)
    obtain ⟨t, hw, -⟩ := writeReg_of_input s r v hr
    exact ⟨⟨_, memRead_offset s r⟩, t, memWrite_of_some s t r v hw⟩

/-! ### What the host reaches of the results and of a pending command (R57, R60, R61) -/

/-- Settles O43: the registers named are views of what a host turn keeps. -/
theorem resultsChangeOnlyAtComplete : Obligations.ResultsChangeOnlyAtComplete := by
  intro s t hn h
  have hk := step_outputsKept_of_host s t hn h
  refine ⟨fun r hr => ?_, hk.errCode, hk.errDetected⟩
  simp only [List.mem_cons, List.not_mem_nil, or_false] at hr
  rcases hr with rfl | rfl | rfl | rfl | rfl | rfl | rfl | rfl | rfl | rfl | rfl | rfl | rfl | rfl
  exacts [hk.polyHeldLen, hk.polyHeld, hk.doutLen, congrArg Quad.w0 hk.dout, congrArg Quad.w1 hk.dout,
    congrArg Quad.w2 hk.dout, congrArg Quad.w3 hk.dout, hk.remRawLen, hk.rem, hk.quotLen, congrArg Quad.w0 hk.quot,
    congrArg Quad.w1 hk.quot, congrArg Quad.w2 hk.quot, congrArg Quad.w3 hk.quot]

/-- No host turn changes the snapshot of a pending command: a CMD write is dropped while there is one. -/
theorem step_pending_of_host (s t : State) (snap : Snapshot) (hn : s.nextTurn = .host) (hp : s.pending = some snap)
    (h : step s = .next t) : t.pending = some snap := by
  simp only [step, hn] at h
  rcases hostTurn_pending_cmdOvr _ t h with ⟨v, -, hpt, -⟩ | ⟨v, -, hpt, -⟩ | ⟨hpt, -⟩
  · rw [hpt, issue_of_some s.popTurn v snap hp]
    exact hp
  · exact hpt.trans hp
  · exact hpt.trans hp

/-- Settles O42: the snapshot is kept, so that both Complete steps run on it (O14); an issue copies the register just written. -/
theorem hostAccessesNeverReachAPendingCommand : Obligations.HostAccessesNeverReachAPendingCommand := by
  constructor
  · intro s t snap hp hn h
    have hpt := step_pending_of_host s t snap hn hp h
    have hparams := step_params s t h
    exact ⟨hpt, hparams, fun i => execDependsOnlyOnSnapshotAndParameters s t snap i hp hpt hparams.symm⟩
  · intro s t r v w hp hw hr
    obtain ⟨u, hu, hread, hpu, -⟩ := writeReg_of_input s r v hr
    obtain rfl : u = t := Except.ok.inj ((memWrite_of_some s u r v hu).symm.trans hw)
    have hv : u.readReg r = v := (hread r).trans (if_pos rfl)
    obtain ⟨h0, h1, h2, h3⟩ := extractLsb'_quadValue u.din
    refine ⟨u.issue w, u.snapshot w, memWrite_of_some u _ .cmd w rfl, by rw [issue_of_none u w (hpu.trans hp)], rfl,
      ?_, ?_, ?_, ?_, ?_, ?_, ?_⟩ <;> rintro rfl
    exacts [hv, hv, hv, h0.trans hv, h1.trans hv, h2.trans hv, h3.trans hv]

/-- Settles O49, by induction on the run: a step that leaves the command pending is the host's, and keeps the snapshot. -/
theorem busyClearsOnlyByCompleteOrReset : Obligations.BusyClearsOnlyByCompleteOrReset := by
  intro n
  induction n with
  | zero =>
    intro s t snap hp hr ht
    obtain rfl := (run_zero s t).mp hr
    simp [hp] at ht
  | succ n ih =>
    intro s t snap hp hr ht
    obtain ⟨u, hu, hr'⟩ := run_next n s t hr
    by_cases hn : s.nextTurn = .host
    · obtain ⟨k, x, y, hk, hx, hrest⟩ := ih u t snap (step_pending_of_host s u snap hn hp hu) hr' ht
      exact ⟨k + 1, x, y, by omega, (run_of_next k s u hu).trans hx, hrest⟩
    · have hagent : s.nextTurn = .engine ∨ s.nextTurn = .reset := by
        cases hs : s.nextTurn <;> simp [hs] at hn ⊢
      exact ⟨0, s, u, by omega, (run_zero s s).mpr rfl, hp, hu, (step_pending_of_some s u snap hu hp).mpr hagent, hagent⟩

end Sys2Proof.Proofs
end

section
/-! PROOFS. The statements of spec/30_encoding.md: the command word and its dispatch (R70 to R72), the lines of a host program (R75),
and the pseudo-instructions (R76). -/

namespace Sys2Proof.Proofs

open Sys2Proof.Machine Sys2Proof.Laws

/-! ### The command word and its byte lanes (R70 to R72, R54) -/

theorem decode_encode (i : Instr) : decode (encode i) = .command i := by
  cases i <;> decide

/-- The decoder reads an instruction in that instruction's word and in no other (R71). -/
theorem decode_eq_command_iff (w : Word) (i : Instr) : decode w = .command i ↔ w = encode i :=
  ⟨eq_encode_of_decode w i, fun h => h ▸ decode_encode i⟩

/-- Byte lanes put side by side and taken apart again (R54). -/
theorem wordLanes_wordOfLanes (b0 b1 b2 b3 : Byte) : wordLanes (wordOfLanes b0 b1 b2 b3) = [b0, b1, b2, b3] := by
  have lane (j : Nat) (b : Byte) (h : ∀ k < 8, (wordOfLanes b0 b1 b2 b3).getLsbD (8 * j + k) = b.getLsbD k) :
      byteLane (wordOfLanes b0 b1 b2 b3) j = b := by
    refine BitVec.eq_of_getLsbD_eq fun k hk => ?_
    rw [byteLane, BitVec.getLsbD_extractLsb', h k hk]
    simp [hk]
  rw [wordLanes, lane 0 b0, lane 1 b1, lane 2 b2, lane 3 b3] <;> intro k hk <;>
    simp only [wordOfLanes, BitVec.getLsbD_append] <;> grind

theorem wordOfLanes_byteLane (w : Word) :
    wordOfLanes (byteLane w 0) (byteLane w 1) (byteLane w 2) (byteLane w 3) = w := by
  refine BitVec.eq_of_getLsbD_eq fun k hk => ?_
  simp only [wordOfLanes, byteLane, BitVec.getLsbD_append, BitVec.getLsbD_extractLsb']
  grind

/-- Reading byte lanes answers an instruction exactly when its word's lanes come first, and then what follows them (R70). -/
theorem decodeLanes_eq_some_iff (bs rest : List Byte) (i : Instr) :
    decodeLanes bs = some (i, rest) ↔ bs = wordLanes (encode i) ++ rest := by
  constructor
  · intro h
    unfold decodeLanes at h
    split at h
    · rename_i b0 b1 b2 b3 tail
      split at h
      · rename_i j hj
        cases h
        rw [← (decode_eq_command_iff _ _).mp hj, wordLanes_wordOfLanes]
        rfl
      · cases h
    · cases h
  · rintro rfl
    simp only [wordLanes, List.cons_append, List.nil_append, decodeLanes, wordOfLanes_byteLane, decode_encode]

/-- Settles O2: the encoder's word is the one word the decoder reads an instruction in, and so for its four byte lanes. -/
theorem decodeAndEncodeAgree : Obligations.DecodeAndEncodeAgree :=
  ⟨fun i rest _ => ⟨decode_encode i, (decodeLanes_eq_some_iff _ rest i).mpr rfl⟩, eq_encode_of_decode,
    fun bs rest i => (decodeLanes_eq_some_iff bs rest i).mp⟩

/-- Settles O1: the first four words are those of the commands. -/
theorem writtenOutWordsDecode : Obligations.WrittenOutWordsDecode :=
  ⟨decode_encode .setpoly, decode_encode .divide, decode_encode .encode, decode_encode .decode,
    by decide, by decide, by decide, by decide⟩

/-- A word is illegal exactly when it is the word of no command. -/
theorem exists_decode_eq_illegal_iff (w : Word) : (∃ why, decode w = .illegal why) ↔ ∀ i, w ≠ encode i := by
  simp only [← decode_eq_command_iff, ne_eq]
  cases decode w <;> simp

/-- R72's fields of a word, against the words of the opcode map: legal are the words 1 to 4. -/
theorem illegal_fields_iff (w : Word) :
    (w >>> 4 ≠ 0#32 ∨ w &&& 0xF#32 = 0#32 ∨ 5 ≤ (w &&& 0xF#32).toNat) ↔ ∀ i, w ≠ encode i := by
  have hrsvd : (w >>> 4).toNat = w.toNat / 16 := by
    rw [BitVec.toNat_ushiftRight, Nat.shiftRight_eq_div_pow]
  have hop : (w &&& 0xF#32).toNat = w.toNat % 16 := by
    rw [BitVec.toNat_and]
    exact Nat.and_two_pow_sub_one_eq_mod w.toNat 4
  have hwords : (∀ i, w ≠ encode i) ↔ w.toNat ≠ 1 ∧ w.toNat ≠ 2 ∧ w.toNat ≠ 3 ∧ w.toNat ≠ 4 := by
    simp only [ne_eq, ← BitVec.toNat_inj]
    exact ⟨fun h => ⟨h .setpoly, h .divide, h .encode, h .decode⟩, fun ⟨h1, h2, h3, h4⟩ i => by cases i <;> assumption⟩
  rw [hwords, ne_eq, ← BitVec.toNat_inj, ← BitVec.toNat_inj, hrsvd, hop]
  simp only [BitVec.toNat_ofNat]
  omega

/-! ### The Complete step of a word (R71, R72) -/

/-- In the engine's turn a pending command runs. -/
theorem step_of_command (s : State) (snap : Snapshot) (i : Instr) (hn : s.nextTurn = .engine) (hp : s.pending = some snap)
    (hd : decode snap.word = .command i) : step s = exec i s.popTurn := by
  simp only [step, hn, engineTurn, popTurn_pending, hp, hd]

/-- In the engine's turn a pending word of no command fails with IllegalCommand. -/
theorem step_of_illegal (s : State) (snap : Snapshot) (hn : s.nextTurn = .engine) (hp : s.pending = some snap)
    (hw : ∀ i, snap.word ≠ encode i) : step s = .next { s.popTurn with errCode := 4#4, pending := none } := by
  obtain ⟨why, hd⟩ := (exists_decode_eq_illegal_iff snap.word).mpr hw
  simp only [step, hn, engineTurn, popTurn_pending, hp, hd]
  rfl

/-- Settles O3: the four words are those the commands are encoded to. -/
theorem execDispatchesOnTheCommandWord : Obligations.ExecDispatchesOnTheCommandWord := by
  intro s snap hn hp
  have run (i : Instr) (hw : snap.word = encode i) : step s = exec i s.popTurn :=
    step_of_command s snap i hn hp ((decode_eq_command_iff _ i).mpr hw)
  refine ⟨run .setpoly, run .divide, run .encode, run .decode, fun h1 h2 h3 h4 => step_of_illegal s snap hn hp fun i => ?_⟩
  cases i
  exacts [h1, h2, h3, h4]

/-- Settles O4: a word with R72's fields is the word of no command; the issue of a command looks at no word. -/
theorem illegalWordsCompleteWithCodeFour : Obligations.IllegalWordsCompleteWithCodeFour := by
  refine fun w => ⟨(illegal_fields_iff w).trans (exists_decode_eq_illegal_iff w).symm, fun s hp => ?_,
    fun s snap hn hp hw hbad => step_of_illegal s snap hn hp (hw ▸ (illegal_fields_iff w).mp hbad)⟩
  refine ⟨s.issue w, memWrite_of_some s _ .cmd w rfl, ?_, ?_⟩ <;> rw [issue_of_none s w hp]
  rfl

/-- Settles O5: the engine's turn of a pending command. -/
theorem stepRunsTheDecodedInstruction : Obligations.StepRunsTheDecodedInstruction :=
  fun s snap i hn hp _ hd => ⟨step_of_command s snap i hn hp hd, rfl⟩

/-! ### The lines of a host program (R75) -/

/-- A line that writes the window goes on at the next line in the state written, or is a BusError. -/
theorem step_of_writesWindow_outcome (s : State) (l : HostLine) (off : Nat) (v : Word) (hn : s.nextTurn = .host)
    (hl : s.host.program[s.host.pc]? = some l) (hoff : off < windowBytes) (ho : WritesWindow s l.op off 4 v) :
    (∀ t, s.popTurn.memWrite off 4 v = .ok t →
      step s = .next { t with host := { s.host with pc := s.host.pc + 1 } }) ∧
    (∀ c, s.popTurn.memWrite off 4 v = .error c → step s = .fault (.busError c)) := by
  have hs := step_of_writesWindow s l off 4 v hn hl hoff ho
  refine ⟨fun t ht => ?_, fun c hc => by rw [hs, hc, afterWrite]⟩
  obtain ⟨r, -, -, hw⟩ := memWrite_ok _ t off 4 v ht
  have hhost : t.host = s.host := writeReg_host s.popTurn t r v hw
  rw [hs, ht, ← hhost]
  rfl

/-- `t` is `s` after a line that puts `v` into `tN`: the host at its next line, the other
temporaries, the registers and the pending command unchanged. -/
def SetsTemp (s t : State) (n : Nat) (v : Word) : Prop :=
  t.host.pc = s.host.pc + 1 ∧ (tempsWf s.host.temps = true → t.temp n = v) ∧ (∀ k, k ≠ n → t.temp k = s.temp k) ∧
    (∀ r : Reg, t.readReg r = s.readReg r) ∧ t.pending = s.pending

theorem setsTemp_setTemp (s : State) (n : Nat) (v : Word) : SetsTemp s (s.popTurn.setTemp n v).nextLine n v :=
  ⟨rfl, fun h => tempRead_tempWrite_same _ none h n v, fun k hk => tempRead_tempWrite_other _ n k v hk,
    fun r => by cases r <;> rfl, rfl⟩

/-- A branch: to the next line where the masked temporary is 0, else to the line that carries the label, if one does. -/
theorem step_of_bnz (s : State) (l : HostLine) (n : Nat) (mask : Word) (label : Nat) (hn : s.nextTurn = .host)
    (hl : s.host.program[s.host.pc]? = some l) (ho : l.op = .bnz n mask label) :
    step s = if s.temp n &&& mask = 0#32 then .next s.popTurn.nextLine
      else match findLabel s.host.program label with
        | some k => .next (s.popTurn.goto k)
        | none => .refused (.undefinedLabel label) := by
  rw [step_of_line s l hn hl, ho]
  rfl

/-- Settles O51, by the kind of line. -/
theorem hostLinesDoWhatTheNotationSays : Obligations.HostLinesDoWhatTheNotationSays := by
  rintro s u l hn rfl hl
  refine ⟨fun off v hoff ho => ?_, fun off n hoff ho => ?_, fun off n hoff ho => ?_, fun n mask label ho => ?_,
    fun n v ho => ?_, fun ho => ?_⟩
  · exact step_of_writesWindow_outcome s l off v hn hl hoff (.inr ⟨rfl, .inl ho⟩)
  · exact step_of_writesWindow_outcome s l off (s.temp n) hn hl hoff (.inr ⟨rfl, .inr ⟨n, ho, rfl⟩⟩)
  · have hs := step_of_readsWindow s l off 4 n hn hl hoff (.inr ⟨rfl, ho⟩)
    exact ⟨fun w hw => ⟨_, by rw [hs, hw, State.afterRead], setsTemp_setTemp s n w⟩,
      fun c hc => by rw [hs, hc, State.afterRead]⟩
  · rw [step_of_bnz s l n mask label hn hl ho]
    refine ⟨fun h0 => by rw [if_pos h0]; rfl, fun hne => ⟨fun k hk => ?_, fun hnone => ?_⟩⟩
    · rw [if_neg hne, hk]; rfl
    · rw [if_neg hne, hnone]
  · rw [step_of_line s l hn hl, ho]
    exact ⟨_, rfl, setsTemp_setTemp s n _⟩
  · rw [step_of_line s l hn hl, ho]
    rfl

/-! ### LDPOLY and LDDIN (R76) -/

/-- The state after host turns at lines that write these registers one after the other, where each takes the write. -/
def afterWrites : List (Reg × Word) → State → State
  | [], s => s
  | (r, v) :: ws, s => afterWrites ws ((s.popTurn.writeReg r v).getD s.popTurn).nextLine

/-- A run over lines that write input registers makes these writes one after the other. -/
theorem run_of_inputWrites (ws : List (Reg × Word)) (s : State) (hr : ∀ w ∈ ws, w.1 ∈ inputRegs)
    (hl : AtLines s (ws.map fun w => lineWR w.1 w.2)) (hn : HostTurnsNext ws.length s) :
    core.run ws.length s = .next (afterWrites ws s) := by
  induction ws generalizing s with
  | nil => exact (run_zero s s).mpr rfl
  | cons w ws ih =>
    obtain ⟨r, v⟩ := w
    obtain ⟨u, hw, -, hp, -, hhost, hsched⟩ := writeReg_of_input s.popTurn r v (hr (r, v) List.mem_cons_self)
    have hs : step s = .next u.nextLine :=
      step_of_hostWrites s u r v (hostTurnsNext_nextTurn _ s hn) ⟨_, atLines_head s _ _ hl, .inl rfl⟩ hw
    have hl' : AtLines u.nextLine (ws.map fun w => lineWR w.1 w.2) :=
      atLines_tail s _ _ _ hl (by rw [nextLine_host, hhost, popTurn_host]) (by rw [nextLine_host, hhost, popTurn_host])
    rw [List.length_cons, run_of_next _ s _ hs, afterWrites, hw, Option.getD_some]
    exact ih _ (fun x hx => hr x (List.mem_cons_of_mem _ hx)) hl' (hostTurnsNext_tail _ s _ hn hsched hp)

/-- A slice of `zext_128` of a value, as `zext_32` of the value shifted (20_memory.md R55). -/
theorem extractLsb'_word128 (v k : Nat) (h : k + 32 ≤ 128) : (word128 v).extractLsb' k 32 = BitVec.ofNat 32 (v >>> k) := by
  refine BitVec.eq_of_getLsbD_eq fun i hi => ?_
  rw [BitVec.getLsbD_extractLsb', word128, BitVec.getLsbD_ofNat, BitVec.getLsbD_ofNat, Nat.testBit_shiftRight]
  simp [hi, show k + i < 128 by omega]

theorem quadOf_word128 (v : Nat) :
    quadOf (word128 v) = { w0 := BitVec.ofNat 32 v, w1 := BitVec.ofNat 32 (v >>> 32)
                           w2 := BitVec.ofNat 32 (v >>> 64), w3 := BitVec.ofNat 32 (v >>> 96) } := by
  rw [quadOf, extractLsb'_word128 v 0, extractLsb'_word128 v 32, extractLsb'_word128 v 64, extractLsb'_word128 v 96] <;> simp

/-- A string that fits its register is read back from it and its length, and leaves no stray bit (10_state.md R38, 60_exceptions.md
R202). -/
theorem view_of_loaded (n : Nat) (b : BitSeq) (h : b.length ≤ n) (hn : n < 2 ^ 32) :
    seqOf (BitVec.ofNat 32 b.length).toNat (BitVec.ofNat n (val b)).toNat = b ∧
      (BitVec.ofNat n (val b)).toNat < 2 ^ b.length := by
  have hval : (BitVec.ofNat n (val b)).toNat = val b := by
    rw [BitVec.toNat_ofNat, Nat.mod_eq_of_lt ((val_lt b).trans_le (Nat.pow_le_pow_right (by decide) h))]
  have hlen : (BitVec.ofNat 32 b.length).toNat = b.length := by
    rw [BitVec.toNat_ofNat, Nat.mod_eq_of_lt (by omega)]
  rw [hval, hlen]
  exact ⟨seqOf_val b, val_lt b⟩

/-- The writes of LDPOLY: POLY_LEN, then POLY_IN. -/
def polyWrites (len v : Word) : List (Reg × Word) := [(.polyLen, len), (.polyIn, v)]

/-- The writes of LDDIN: DIN_LEN, then the four DIN words. -/
def dinWrites (len : Word) (q : Quad) : List (Reg × Word) :=
  [(.dinLen, len), (.din0, q.w0), (.din1, q.w1), (.din2, q.w2), (.din3, q.w3)]

theorem afterWrites_polyWrites (s : State) (len v : Word) :
    afterWrites (polyWrites len v) s =
      { s with polyLen := len, polyIn := v
               host := { s.host with pc := s.host.pc + 2 }, schedule := s.schedule.drop 2 } := by
  simp [polyWrites, afterWrites, State.writeReg, State.nextLine, State.goto, State.popTurn, ← List.drop_one]

theorem afterWrites_dinWrites (s : State) (len : Word) (q : Quad) :
    afterWrites (dinWrites len q) s =
      { s with dinLen := len, din := q
               host := { s.host with pc := s.host.pc + 5 }, schedule := s.schedule.drop 5 } := by
  simp [dinWrites, afterWrites, State.writeReg, State.nextLine, State.goto, State.popTurn, ← List.drop_one]

/-- Settles O52: the run makes the writes of the lines, and the registers then hold the string's length and value. -/
theorem loadedDigitStringsAreTheViews : Obligations.LoadedDigitStringsAreTheViews := by
  constructor
  · intro s b hl hn
    have hrun := run_of_inputWrites (polyWrites (word32 b.length) (word32 (val b))) s (by simp [polyWrites, inputRegs]) hl hn
    rw [afterWrites_polyWrites] at hrun
    exact ⟨_, hrun, rfl, fun h _ => view_of_loaded 32 b h (by decide)⟩
  · intro s b hl hn
    have hrun := run_of_inputWrites (dinWrites (word32 b.length) (quadOf (word128 (val b)))) s
      (by simp [dinWrites, inputRegs]) hl hn
    rw [afterWrites_dinWrites] at hrun
    refine ⟨_, hrun, by rw [quadOf_word128]; rfl, fun h w => ?_⟩
    rw [Snapshot.dinSeq, snapshot_din, quadValue_quadOf]
    exact view_of_loaded 128 b h (by decide)

/-! ### The command lines, CLROVR and WAIT (R76) -/

/-- A line with no label that writes a register which takes the write. -/
theorem step_of_lineWR (s u : State) (r : Reg) (v : Word) (hn : s.nextTurn = .host) (hl : AtLines s [lineWR r v])
    (hw : s.popTurn.writeReg r v = some u) : step s = .next u.nextLine :=
  step_of_hostWrites s u r v hn ⟨_, atLines_head s _ _ hl, .inl rfl⟩ hw

/-- A command line is the issue of the command's word (10_state.md R40). -/
theorem step_of_lineCommand (s : State) (i : Instr) (hn : s.nextTurn = .host) (hl : AtLines s [lineCommand i]) :
    step s = .next (s.popTurn.issue (encode i)).nextLine :=
  step_of_lineWR s _ .cmd (encode i) hn hl rfl

/-- The lowest bit of STATUS is 0 exactly when no command is pending (10_state.md R25). -/
theorem statusWord_and_one (s : State) : s.statusWord &&& 0x1#32 = 0#32 ↔ s.pending = none := by
  have hbit : s.statusWord &&& 0x1#32 = 0#32 ↔ s.statusWord.getLsbD 0 = false := by
    rw [BitVec.and_one_eq_setWidth_ofBool_getLsbD]
    cases s.statusWord.getLsbD 0 <;> decide
  rw [hbit, (statusWord_bits s).1, State.busy, Option.isSome_eq_false_iff, Option.isNone_iff_eq_none]

/-- The state after the first line of WAIT. -/
def afterWaitRead (s : State) : State := (s.popTurn.setTemp 0 (s.readReg .status)).nextLine

/-- WAIT's first line reads STATUS into `t0`. -/
theorem step_of_wait_read (s : State) (fresh : Nat) (hl : AtLines s (linesWAIT fresh)) (hn : s.nextTurn = .host) :
    step s = .next (afterWaitRead s) := by
  rw [step_of_line s _ hn (atLines_head s _ _ hl), hostOp_rd, readReg_popTurn]
  rfl

/-- WAIT's second line goes back to the first unless the BUSY in `t0` is 0, whenever the host comes to it. -/
theorem step_of_wait_branch (s u : State) (fresh : Nat) (hl : AtLines s (linesWAIT fresh))
    (hlabel : findLabel s.host.program fresh = some s.host.pc) (hprog : u.host.program = s.host.program)
    (hpc : u.host.pc = s.host.pc + 1) (hn : u.nextTurn = .host) :
    step u = .next
      { u with
        host := { u.host with pc := if u.temp 0 &&& 0x1#32 = 0#32 then s.host.pc + 2 else s.host.pc }
        schedule := u.schedule.tail } := by
  have hline := atLines_head u _ _ (atLines_tail s u _ _ hl hprog hpc)
  rw [step_of_bnz u _ 0 0x1#32 fresh hn hline rfl, hprog, hlabel]
  split_ifs
  · rw [State.nextLine, popTurn_host, hpc]
    rfl
  · rfl

/-- Settles O53: a command line issues, CLROVR writes bit 3 of STATUS, and the two lines of WAIT are a read and a branch. -/
theorem pseudoInstructionsDoWhatTheirExpansionsDo : Obligations.PseudoInstructionsDoWhatTheirExpansionsDo := by
  refine ⟨fun s i w hn hl hw => ?_, fun s hn hl => ?_, fun s fresh hl hlabel => ?_⟩
  · obtain rfl : encode i = w := by
      simp only [List.mem_cons, Prod.mk.injEq, List.not_mem_nil, or_false] at hw
      rcases hw with ⟨rfl, rfl⟩ | ⟨rfl, rfl⟩ | ⟨rfl, rfl⟩ | ⟨rfl, rfl⟩ <;> rfl
    rw [step_of_lineCommand s i hn hl]
    constructor <;> intro hp
    · rw [issue_of_none s.popTurn _ hp]
      rfl
    · obtain ⟨snap, hs⟩ := Option.ne_none_iff_exists'.mp hp
      rw [issue_of_some s.popTurn _ snap hs]
      rfl
  · have hclear : s.popTurn.writeStatus 0x8#32 = { s.popTurn with cmdOvr := false } := by
      simp [State.writeStatus]
    rw [step_of_lineWR s _ .status 0x8#32 hn hl rfl, hclear]
    rfl
  · obtain ⟨hpc, htemp, hother, -, -⟩ := setsTemp_setTemp s 0 (s.readReg .status)
    have hbusy (hwf : tempsWf s.host.temps = true) : (afterWaitRead s).temp 0 &&& 0x1#32 = 0#32 ↔ s.pending = none := by
      rw [afterWaitRead, htemp hwf]
      exact statusWord_and_one s
    refine ⟨fun hn => ?_, fun u => step_of_wait_branch s u fresh hl hlabel, fun hn hwf => ?_⟩
    · exact ⟨_, step_of_wait_read s fresh hl hn, rfl, rfl, hpc, hother, fun hwf => ⟨htemp hwf, hbusy hwf⟩⟩
    · have hfirst := step_of_wait_read s fresh hl (hostTurnsNext_nextTurn _ s hn)
      have hbranch := step_of_wait_branch s (afterWaitRead s) fresh hl hlabel rfl rfl
        (hostTurnsNext_nextTurn _ _ (hostTurnsNext_tail _ s _ hn rfl rfl))
      refine ⟨_, (run_of_next 1 s _ hfirst).trans ((run_of_next 0 _ _ hbranch).trans ((run_zero _ _).mpr rfl)), ?_, ?_⟩
      · rw [← List.tail_drop, List.drop_one]
        rfl
      · by_cases hidle : s.pending = none <;> simp [hbusy hwf, hidle]

end Sys2Proof.Proofs
end

section
/-! PROOFS. The statements of spec/40_polynomial.md: SETPOLY and its checks (R100), the valid generator polynomial (R101), and the
replacement of the held polynomial (R103). -/

namespace Sys2Proof.Proofs

open Sys2Proof.Machine Sys2Proof.Laws

/-! ### The candidate of a SETPOLY (R100, R101) -/

/-- The checks of SETPOLY in the spec's own terms (60_exceptions.md R206). -/
theorem setPoly_eq (p : Params) (snap : Snapshot) :
    setPoly p snap =
      if snap.polyLen.toNat > p.polyMax then .error .lengthOverflow
      else if snap.polyLen.toNat < 32 ∧ snap.polyIn >>> snap.polyLen.toNat ≠ 0#32 then .error .invalidBit
      else if snap.polyLen.toNat < 2 ∨ snap.polyIn.getLsbD (snap.polyLen.toNat - 1) = false then .error .divisorDegenerate
      else .ok { polyHeld := some (snap.polyLen, snap.polyIn) } := by
  simp [setPoly, strayBit]

/-- A candidate that is a valid polynomial passes every check. -/
theorem setPoly_of_validPoly (p : Params) (snap : Snapshot) (h : ValidPoly p snap.polyLen snap.polyIn) :
    setPoly p snap = .ok { polyHeld := some (snap.polyLen, snap.polyIn) } := by
  obtain ⟨htwo, hmax, htop, hfits⟩ := h
  have hstray : strayBit snap.polyIn snap.polyLen.toNat = false := (strayBit_eq_false_iff _ _).mpr hfits
  simp [setPoly, hstray, htop, Nat.not_lt.mpr hmax, Nat.not_lt.mpr htwo]

/-- The first element of a nonempty `seq_L(v)` is bit `L - 1` of `v` (00_scope.md R12). -/
theorem seqOf_head? (L v : Nat) (h : 0 < L) : (seqOf L v).head? = some (v.testBit (L - 1)) := by
  rw [List.head?_eq_getElem?, seqOf_getElem? L v 0 h, Nat.sub_zero]

/-- R101 of a register pair is R101 of its view: the leading bit is the first element. -/
theorem validPoly_iff_validSeq (p : Params) (snap : Snapshot) :
    ValidPoly p snap.polyLen snap.polyIn ↔
      snap.polyLen.toNat ≤ p.polyMax ∧ snap.polyIn.toNat < 2 ^ snap.polyLen.toNat ∧ ValidSeq snap.polyInSeq := by
  have hseq : ValidSeq snap.polyInSeq ↔
      2 ≤ snap.polyLen.toNat ∧ snap.polyIn.getLsbD (snap.polyLen.toNat - 1) = true := by
    rw [ValidSeq, Snapshot.polyInSeq, seqOf_length]
    refine and_congr_right fun htwo => ?_
    rw [seqOf_head? _ _ (by omega), Option.some_inj, BitVec.getLsbD]
  rw [hseq, ValidPoly]
  tauto

/-! ### The Complete step of a SETPOLY (R100, R103) -/

/-- A SETPOLY that completes with code 0 had a valid candidate, and has written it and nothing else. -/
theorem exec_setpoly_of_errCode_zero (s t : State) (snap : Snapshot) (hp : s.pending = some snap)
    (he : exec .setpoly s = .next t) (h0 : t.errCode = 0#4) :
    ValidPoly s.params snap.polyLen snap.polyIn ∧
      t = s.finishCommand { polyHeld := some (snap.polyLen, snap.polyIn) } := by
  rw [exec_eq_complete] at he
  obtain rfl := Host.Outcome.next.inj he
  cases hrun : runOf .setpoly s.params snap with
  | error e =>
    rw [complete_of_error s _ snap e hp hrun] at h0
    exact absurd h0 (errorCode_ne_zero e)
  | ok w =>
    obtain ⟨hvalid, rfl⟩ := setPoly_ok _ snap w hrun
    exact ⟨hvalid, complete_of_ok s _ snap _ hp hrun⟩

/-- Settles O6, check by check; a candidate that passes them has two elements, so POLY_HELD_LEN is then not 0. -/
theorem setpolyCompletes : Obligations.SetpolyCompletes := by
  refine ⟨rfl, fun s snap hp => ⟨?_, fun t he h0 => ?_⟩⟩
  · have hrun : runOf .setpoly s.params snap = _ := setPoly_eq s.params snap
    rw [exec_eq_complete]
    refine congrArg Host.Outcome.next ?_
    split_ifs at hrun ⊢
    · exact complete_of_error s _ snap .lengthOverflow hp hrun
    · exact complete_of_error s _ snap .invalidBit hp hrun
    · exact complete_of_error s _ snap .divisorDegenerate hp hrun
    · exact complete_of_ok s _ snap _ hp hrun
  · obtain ⟨⟨htwo, -⟩, rfl⟩ := exec_setpoly_of_errCode_zero s t snap hp he h0
    rw [State.readReg, (statusWord_bits _).2.1, State.polyValid, decide_eq_true_iff]
    rintro (hzero : snap.polyLen = 0#32)
    simp [hzero] at htwo

/-- Settles O7: the checks pass exactly on a valid polynomial. -/
theorem setpolyAcceptsExactlyValidPolynomials : Obligations.SetpolyAcceptsExactlyValidPolynomials := by
  intro s snap hp
  refine ⟨_, exec_eq_complete .setpoly s, ?_⟩
  rw [← validPoly_iff_validSeq]
  constructor
  · exact fun h0 => (exec_setpoly_of_errCode_zero s _ snap hp (exec_eq_complete .setpoly s) h0).1
  · intro hvalid
    rw [complete_of_ok s (runOf .setpoly) snap _ hp (setPoly_of_validPoly _ snap hvalid)]
    rfl

/-! ### The held polynomial over a step (R103) -/

/-- A Complete step that writes the held polynomial is a SETPOLY that succeeds. -/
theorem commandResult_writes_polyHeld (p : Params) (snap : Snapshot) (w : Writes) (h : commandResult p snap = .ok w)
    (hw : w.polyHeld ≠ none) : snap.word = 0x00000001#32 := by
  obtain ⟨i, hd, hrun⟩ := commandResult_ok p snap w h
  have hmem : Reg.polyHeldLen ∈ writtenRegs i := by
    rw [← (runOf_ok_regs i p snap w hrun).1]
    simp [regsOf, Option.isSome_iff_ne_none.mpr hw]
  have hi : i = .setpoly := by
    cases i
    case setpoly => rfl
    all_goals simp [writtenRegs] at hmem
  rw [eq_encode_of_decode snap.word i hd, hi]
  rfl

/-- Where the held polynomial changes, a reset or a SETPOLY that succeeds did it. -/
theorem step_of_polyHeld_ne (s t : State) (h : step s = .next t)
    (hne : t.polyHeldLen ≠ s.polyHeldLen ∨ t.polyHeld ≠ s.polyHeld) :
    s.nextTurn = .reset ∨
      (s.nextTurn = .engine ∧ ∃ snap, s.pending = some snap ∧ snap.word = 0x00000001#32 ∧ t.errCode = 0#4) := by
  have hchanged : ¬ (t.polyHeldLen = s.polyHeldLen ∧ t.polyHeld = s.polyHeld) := by tauto
  cases hn : s.nextTurn with
  | reset => exact .inl rfl
  | host =>
    have hk := step_outputsKept_of_host s t hn h
    exact absurd ⟨hk.polyHeldLen, hk.polyHeld⟩ hchanged
  | engine =>
    obtain rfl := step_of_engine s t hn h
    rcases complete_cases s.popTurn commandResult with ⟨-, hc⟩ | ⟨snap, e, -, -, hc⟩ | ⟨snap, w, hp, hr, hc⟩ <;>
      rw [hc] at hchanged ⊢
    · exact absurd ⟨rfl, rfl⟩ hchanged
    · exact absurd ⟨rfl, rfl⟩ hchanged
    · refine .inr ⟨rfl, snap, hp, commandResult_writes_polyHeld _ snap w hr fun hnone => hchanged ?_, rfl⟩
      simp [hnone]

/-- Settles O41: who changes the held polynomial, and all that a SETPOLY which succeeds writes. -/
theorem onlySetpolyReplacesTheHeldPolynomial : Obligations.OnlySetpolyReplacesTheHeldPolynomial := by
  refine fun s t h => ⟨step_of_polyHeld_ne s t h, fun snap hn hp hw h0 => ?_⟩
  have hd : decode snap.word = .command .setpoly := (decode_eq_command_iff _ .setpoly).mpr hw
  rw [step_of_command s snap .setpoly hn hp hd] at h
  obtain ⟨-, rfl⟩ := exec_setpoly_of_errCode_zero s.popTurn t snap hp h h0
  exact ⟨rfl, rfl, rfl, rfl, rfl, rfl, rfl, rfl, rfl⟩

end Sys2Proof.Proofs
end

section
/-! PROOFS. The statements of spec/41_divider.md: the XOR step and the strip (R121, R122), the division loop and its bound (R120,
R123, R129, R130), the value law and the length law (R127, R128), and DIVIDE (R131). -/

namespace Sys2Proof.Proofs

open Sys2Proof.Machine Sys2Proof.Laws

/-! ### XOR step and strip (R121, R122, R129) -/

/-- A divisor element is exclusive-ored into the element at its own place (R121). -/
theorem xorStep_getElem?_of_some (p w : BitSeq) (i : Nat) (x b : Bool) (hx : w[i]? = some x) (hb : p[i]? = some b) :
    (xorStep p w)[i]? = some (x ^^ b) := by
  induction p generalizing w i with
  | nil => cases hb
  | cons c p ih =>
    cases w with
    | nil => cases hx
    | cons y w =>
      cases i with
      | zero => cases hx; cases hb; rfl
      | succ i => exact ih w i hx hb

/-- The elements past the divisor stay (R121). -/
theorem xorStep_getElem?_of_le (p w : BitSeq) (i : Nat) (h : p.length ≤ i) : (xorStep p w)[i]? = w[i]? := by
  induction p generalizing w i with
  | nil => simp
  | cons b p ih =>
    cases w with
    | nil => rfl
    | cons x w =>
      obtain ⟨j, rfl⟩ : ∃ j, i = j + 1 := Nat.exists_eq_succ_of_ne_zero (by simp at h; omega)
      exact ih w j (by simpa using h)

/-- The same XOR step twice changes nothing (R129). -/
theorem xorStep_xorStep (p w : BitSeq) : xorStep p (xorStep p w) = w := by
  induction p generalizing w with
  | nil => simp
  | cons b p ih =>
    cases w with
    | nil => rfl
    | cons x w => simp [ih]

/-- Strip removes zeros from the front, and nothing else (R122). -/
theorem eq_zeros_append_strip (w : BitSeq) : ∃ n, w = zeros n ++ strip w := by
  induction w with
  | nil => exact ⟨0, rfl⟩
  | cons b w ih =>
    cases b with
    | false =>
      obtain ⟨n, hn⟩ := ih
      exact ⟨n + 1, congrArg (false :: ·) hn⟩
    | true => exact ⟨0, rfl⟩

/-- A sequence that begins with 1 has nothing to strip (R122). -/
theorem strip_of_head? (w : BitSeq) (h : w.head? = some true) : strip w = w := by
  obtain ⟨w', rfl⟩ := List.head?_eq_some_iff.mp h
  rfl

/-- With a divisor that begins with 1, an XOR step turns a leading 0 into a 1 (R129). -/
theorem xorStep_head?_of_false (p w : BitSeq) (hp : p.head? = some true) (hw : w.head? = some false) :
    (xorStep p w).head? = some true := by
  obtain ⟨p', rfl⟩ := List.head?_eq_some_iff.mp hp
  obtain ⟨w', rfl⟩ := List.head?_eq_some_iff.mp hw
  rfl

/-- Settles O19: the leading 1 protects the first pass's result from the strip, and the second XOR step undoes the first. -/
theorem twoPassesStripLeadingZeros : Obligations.TwoPassesStripLeadingZeros := by
  intro d p ⟨_, hp⟩ _ hd
  have hhead := xorStep_head?_of_false p d hp hd
  have hstrip := strip_of_head? _ hhead
  exact ⟨hhead, hstrip, xorStep_length p d, xorStep_xorStep p d, by rw [hstrip, xorStep_xorStep]⟩

/-! ### The loop and its bound (R120, R123, R130) -/

/-- The working sequence after a strip: empty, or with a leading 1 (R122). -/
def Stripped (w : BitSeq) : Prop := w = [] ∨ w.head? = some true

theorem stripped_strip (w : BitSeq) : Stripped (strip w) := strip_eq_nil_or_head?_eq_true w

/-- A pass, an XOR step and a strip, never lengthens the working sequence. -/
theorem pass_length_le (p w : BitSeq) : (strip (xorStep p w)).length ≤ w.length := by
  simpa using strip_length_le (xorStep p w)

/-- Where the divisor and the working sequence both begin with 1, a pass removes at least that leading element (R130). -/
theorem pass_length_lt (p w : BitSeq) (hp : p.head? = some true) (hw : Stripped w) (hlen : p.length ≤ w.length) :
    (strip (xorStep p w)).length < w.length := by
  obtain ⟨p', rfl⟩ := List.head?_eq_some_iff.mp hp
  rcases hw with rfl | hw
  · cases hlen
  · obtain ⟨w', rfl⟩ := List.head?_eq_some_iff.mp hw
    exact Nat.lt_succ_of_le (pass_length_le p' w')

/-- The passes, one at a time (R130). -/
theorem divPasses_succ (n : Nat) (p w : BitSeq) :
    divPasses (n + 1) p w = if p.length ≤ w.length then divPasses n p (strip (xorStep p w)) + 1 else 0 := rfl

/-- No pass is made where the working sequence is shorter than the divisor (R123). -/
theorem divPasses_of_short (n : Nat) (p w : BitSeq) (h : w.length < p.length) : divPasses n p w = 0 := by
  cases n with
  | zero => rfl
  | succ n => rw [divPasses_succ, if_neg (Nat.not_le.mpr h)]

/-- Once the loop has reached its exit, a greater bound changes neither its result nor the number of its passes. -/
theorem divLoop_divPasses_add (n more : Nat) (p w : BitSeq) (h : (divLoop n p w).length < p.length) :
    divLoop (n + more) p w = divLoop n p w ∧ divPasses (n + more) p w = divPasses n p w := by
  induction n generalizing w with
  | zero => exact ⟨divLoop_of_short _ p w h, divPasses_of_short _ p w h⟩
  | succ n ih =>
    rw [Nat.add_right_comm, divLoop_succ, divLoop_succ, divPasses_succ, divPasses_succ]
    rw [divLoop_succ] at h
    split_ifs at h ⊢
    · obtain ⟨hloop, hpasses⟩ := ih _ h
      exact ⟨hloop, congrArg (· + 1) hpasses⟩
    · exact ⟨rfl, rfl⟩

/-- Any two bounds that leave one pass for each element of a stripped working sequence give the same result. -/
theorem divLoop_eq_of_length_le (n k : Nat) (p w : BitSeq) (hp : p.head? = some true) (hw : Stripped w)
    (hn : w.length ≤ n) (hk : w.length ≤ k) : divLoop n p w = divLoop k p w := by
  have hexit := divLoop_length_lt w.length p w hp hw le_rfl
  obtain ⟨i, rfl⟩ := Nat.exists_eq_add_of_le hn
  obtain ⟨j, rfl⟩ := Nat.exists_eq_add_of_le hk
  rw [(divLoop_divPasses_add _ i p w hexit).1, (divLoop_divPasses_add _ j p w hexit).1]

/-- The division by its own recursion, the model's cut-off out of sight (R120, R123). -/
theorem rawRemainder_pass (d p : BitSeq) (hp : p.head? = some true) (h : p.length ≤ d.length) :
    rawRemainder d p = rawRemainder (strip (xorStep p d)) p := by
  rw [rawRemainder, passBound, divLoop_succ, if_pos h]
  exact divLoop_eq_of_length_le _ _ p _ hp (stripped_strip _) (pass_length_le p d) (Nat.le_succ _)

theorem rawRemainder_of_short (d p : BitSeq) (h : d.length < p.length) : rawRemainder d p = d :=
  divLoop_of_short _ p d h

/-- Settles O15: the XOR step place by place, strip by recursion, and the loop's test before the first pass. -/
theorem xorStepAndStripAct : Obligations.XorStepAndStripAct := by
  refine ⟨fun p w _ => ⟨xorStep_length p w, xorStep_getElem?_of_some p w, xorStep_getElem?_of_le p w⟩, fun w => ?_,
    rawRemainder_of_short, rawRemainder_pass⟩
  obtain ⟨n, hn⟩ := eq_zeros_append_strip w
  exact ⟨n, hn, strip_eq_nil_or_head?_eq_true w⟩

/-- Settles O16: one pass or the exit, the length at the exit, and the quotient by R125. -/
theorem divisionRunsToItsExit : Obligations.DivisionRunsToItsExit := by
  refine fun d p hp => ⟨?_, rawRemainder_length_lt d p hp, fun z => ?_⟩
  · split_ifs with h
    · exact rawRemainder_pass d p hp h
    · exact rawRemainder_of_short d p (Nat.lt_of_not_le h)
  · simp [gf2Div, placeholderQuotient]

/-- From a stripped working sequence every pass shortens it (R130, second case). -/
theorem divPasses_le_of_stripped (n : Nat) (p w : BitSeq) (hp : p.head? = some true) (hw : Stripped w) :
    divPasses n p w ≤ w.length + 1 - p.length := by
  induction n generalizing w with
  | zero => exact Nat.zero_le _
  | succ n ih =>
    rw [divPasses_succ]
    split_ifs with hlen
    · have hrest := ih _ (stripped_strip (xorStep p w))
      have hshorter := pass_length_lt p w hp hw hlen
      omega
    · exact Nat.zero_le _

/-- From any working sequence the first pass strips it, and at most one pass more is made than from a stripped one (R130, third
case). -/
theorem divPasses_le (n : Nat) (p w : BitSeq) (hp : p.head? = some true) : divPasses n p w ≤ w.length + 2 - p.length := by
  cases n with
  | zero => exact Nat.zero_le _
  | succ n =>
    rw [divPasses_succ]
    split_ifs with hlen
    · have hrest := divPasses_le_of_stripped n p _ hp (stripped_strip (xorStep p w))
      have hpass := pass_length_le p w
      omega
    · exact Nat.zero_le _

/-- Settles O20: the exit is reached within the model's bound, and the counts follow from what a pass does to the length. -/
theorem passesAreBounded : Obligations.PassesAreBounded := by
  intro d p more ⟨htwo, hp⟩
  have hany := divPasses_le (passBound d) p d hp
  refine ⟨(divLoop_divPasses_add _ more p d (rawRemainder_length_lt d p hp)).2, divPasses_of_short _ p d, ?_, ?_, ?_⟩
  · intro hlen hd
    have hstripped := divPasses_le_of_stripped (passBound d) p d hp (.inr hd)
    omega
  · intros
    omega
  · omega

/-! ### The polynomial of a value (R127) -/

/-- The bits of a sequence's value are the coefficients of its polynomial. -/
theorem coeff_polyOf (s : BitSeq) (i : Nat) : (polyOf s).coeff i = if (val s).testBit i then 1 else 0 := by
  induction s with
  | nil => simp [polyOf]
  | cons b s ih =>
    have hlead : (if b then Polynomial.X ^ s.length else 0 : Polynomial (ZMod 2)).coeff i =
        if b = true ∧ i = s.length then 1 else 0 := by
      cases b <;> simp [Polynomial.coeff_X_pow]
    rw [polyOf, Polynomial.coeff_add, hlead, ih, testBit_val_cons]
    by_cases h : i < s.length
    · simp [h, h.ne]
    · have hvanish : (val s).testBit i = false :=
        Nat.testBit_lt_two_pow ((val_lt s).trans_le (Nat.pow_le_pow_right (by decide) (Nat.le_of_not_lt h)))
      have hfirst : b.toNat.testBit (i - s.length) = (b && decide (i = s.length)) := by
        cases b with
        | false => simp
        | true =>
          rw [Bool.eq_iff_iff, Bool.toNat_true, Nat.testBit_one_eq_true_iff_self_eq_zero, Bool.true_and, decide_eq_true_iff]
          omega
      simp [h, hvanish, hfirst]

/-- The polynomial whose coefficients are the bits of `v`: that of `seq_L(v)` for every `L` that holds `v`. -/
noncomputable def natPoly (v : Nat) : Polynomial (ZMod 2) := polyOf (seqOf v.size v)

theorem coeff_natPoly (v i : Nat) : (natPoly v).coeff i = if v.testBit i then 1 else 0 := by
  rw [natPoly, coeff_polyOf, val_seqOf, Nat.mod_eq_of_lt v.lt_size_self]

/-- The polynomial of a sequence depends on its value only, not on its leading zeros. -/
theorem natPoly_val (s : BitSeq) : natPoly (val s) = polyOf s :=
  Polynomial.ext fun i => by rw [coeff_natPoly, coeff_polyOf]

theorem natPoly_injective : Function.Injective natPoly := fun v w h =>
  Nat.eq_of_testBit_eq fun i => by
    have hcoeff := congrArg (Polynomial.coeff · i) h
    simp only [coeff_natPoly] at hcoeff
    cases hv : v.testBit i <;> cases hw : w.testBit i <;> simp [hv, hw] at hcoeff ⊢

/-- Exclusive or of values is addition over GF(2). -/
theorem natPoly_xor (v w : Nat) : natPoly (v ^^^ w) = natPoly v + natPoly w :=
  Polynomial.ext fun i => by
    rw [Polynomial.coeff_add, coeff_natPoly, coeff_natPoly, coeff_natPoly, Nat.testBit_xor]
    cases v.testBit i <;> cases w.testBit i <;> decide

/-- A shift to the left is multiplication by a power of `x`. -/
theorem natPoly_shiftLeft (v k : Nat) : natPoly (v <<< k) = natPoly v * Polynomial.X ^ k :=
  Polynomial.ext fun i => by
    rw [Polynomial.coeff_mul_X_pow', coeff_natPoly, coeff_natPoly, Nat.testBit_shiftLeft]
    by_cases h : k ≤ i <;> simp [h]

theorem degree_natPoly_lt (v n : Nat) (h : v < 2 ^ n) : (natPoly v).degree < n := by
  rw [Polynomial.degree_lt_iff_coeff_zero]
  intro i hi
  rw [coeff_natPoly, Nat.testBit_lt_two_pow (h.trans_le (Nat.pow_le_pow_right (by decide) hi))]
  rfl

/-- A divisor that begins with 1 is monic, of degree `m - 1`. -/
theorem polyOf_monic_degree (p : BitSeq) (hp : p.head? = some true) :
    (polyOf p).Monic ∧ (polyOf p).degree = (p.length - 1 : Nat) := by
  obtain ⟨p', rfl⟩ := List.head?_eq_some_iff.mp hp
  have hlow : (polyOf p').degree < p'.length := by
    rw [← natPoly_val]
    exact degree_natPoly_lt _ _ (val_lt p')
  have hpoly : polyOf (true :: p') = Polynomial.X ^ p'.length + polyOf p' := rfl
  rw [hpoly]
  refine ⟨Polynomial.monic_X_pow_add hlow, ?_⟩
  rw [Polynomial.degree_add_eq_left_of_degree_lt (by rwa [Polynomial.degree_X_pow]), Polynomial.degree_X_pow]
  rfl

/-- Uniqueness of the remainder: a value below `2^(m-1)` that is congruent to the dividend modulo the divisor is the remainder. -/
theorem natPoly_eq_modByMonic (p d : BitSeq) (r : Nat) (hp : p.head? = some true) (hr : r < 2 ^ (p.length - 1))
    (hcongr : polyOf p ∣ natPoly r - polyOf d) : natPoly r = Polynomial.modByMonic (polyOf d) (polyOf p) := by
  obtain ⟨hmonic, hdegree⟩ := polyOf_monic_degree p hp
  rw [← Polynomial.modByMonic_eq_of_dvd_sub hmonic hcongr, eq_comm, Polynomial.modByMonic_eq_self_iff hmonic, hdegree]
  exact degree_natPoly_lt r _ hr

/-! ### The loop keeps the polynomial modulo the divisor (R127) -/

/-- An XOR step adds `poly(p)·x^(len(w)-m)` (R127). -/
theorem polyOf_xorStep (p w : BitSeq) (h : p.length ≤ w.length) :
    polyOf (xorStep p w) = polyOf w + polyOf p * Polynomial.X ^ (w.length - p.length) := by
  induction p generalizing w with
  | nil => simp [polyOf]
  | cons b p ih =>
    cases w with
    | nil => cases h
    | cons x w =>
      have hlen : p.length ≤ w.length := Nat.le_of_succ_le_succ h
      have hlead : (if (x ^^ b) = true then Polynomial.X ^ w.length else 0 : Polynomial (ZMod 2)) =
          (if x then Polynomial.X ^ w.length else 0) + (if b then Polynomial.X ^ w.length else 0) := by
        cases x <;> cases b <;> simp [CharTwo.add_self_eq_zero]
      have hshift : (if b then Polynomial.X ^ p.length else 0 : Polynomial (ZMod 2)) * Polynomial.X ^ (w.length - p.length) =
          if b then Polynomial.X ^ w.length else 0 := by
        rw [ite_mul, zero_mul, ← pow_add, Nat.add_sub_cancel' hlen]
      rw [xorStep_cons, polyOf, polyOf, polyOf, xorStep_length, ih w hlen, hlead, List.length_cons, List.length_cons,
        Nat.add_sub_add_right, add_mul, hshift]
      ring

/-- A strip removes zero coefficients only (R127). -/
theorem polyOf_strip (w : BitSeq) : polyOf (strip w) = polyOf w := by
  induction w with
  | nil => rfl
  | cons b w ih =>
    cases b with
    | false => simp [polyOf, ih]
    | true => rfl

/-- The working sequence after any number of passes is congruent to the dividend (R127). -/
theorem polyOf_dvd_divLoop_sub (n : Nat) (p d : BitSeq) : polyOf p ∣ polyOf (divLoop n p d) - polyOf d := by
  induction n generalizing d with
  | zero => simp [divLoop]
  | succ n ih =>
    rw [divLoop_succ]
    split_ifs with hlen
    · have hpass : polyOf (strip (xorStep p d)) - polyOf d = polyOf p * Polynomial.X ^ (d.length - p.length) := by
        rw [polyOf_strip, polyOf_xorStep p d hlen, add_sub_cancel_left]
      rw [← sub_add_sub_cancel _ (polyOf (strip (xorStep p d))), hpass]
      exact dvd_add (ih _) (dvd_mul_right _ _)
    · simp

theorem val_rawRemainder_lt (d p : BitSeq) (hp : p.head? = some true) : val (rawRemainder d p) < 2 ^ (p.length - 1) :=
  (val_lt _).trans_le (Nat.pow_le_pow_right (by decide) (Nat.le_sub_one_of_lt (rawRemainder_length_lt d p hp)))

/-- The raw remainder is the polynomial remainder over GF(2) (R127). -/
theorem polyOf_rawRemainder (d p : BitSeq) (hp : p.head? = some true) :
    polyOf (rawRemainder d p) = Polynomial.modByMonic (polyOf d) (polyOf p) := by
  rw [← natPoly_val]
  refine natPoly_eq_modByMonic p d _ hp (val_rawRemainder_lt d p hp) ?_
  rw [natPoly_val]
  exact polyOf_dvd_divLoop_sub _ p d

/-! ### The carry-less remainder (R127) -/

/-- A sequence that begins with 1 is as long as its value is in bits (R128). -/
theorem size_val_of_head? (s : BitSeq) (h : s.head? = some true) : (val s).size = s.length := by
  refine le_antisymm (Nat.size_le.mpr (val_lt s)) ?_
  obtain ⟨s', rfl⟩ := List.head?_eq_some_iff.mp h
  rw [List.length_cons, Nat.succ_le_iff, Nat.lt_size, val_cons]
  simp

/-- One step of `clmod`: at shift `i`, `b` is exclusive-ored in where its leading 1 meets a 1. -/
def clmodStep (b acc i : Nat) : Nat := if acc.testBit (i + (b.size - 1)) then acc ^^^ (b <<< i) else acc

theorem clmod_eq_foldl (a b : Nat) : clmod a b = (List.range a.size).reverse.foldl (clmodStep b) a := rfl

/-- A step at shift `i` clears bit `i + deg b`, so a value of that many bits and one loses the topmost. -/
theorem clmodStep_lt (b acc i k : Nat) (hb : b.size = k + 1) (h : acc < 2 ^ (i + 1 + k)) : clmodStep b acc i < 2 ^ (i + k) := by
  have hlow : 2 ^ k ≤ b := Nat.lt_size.mp (by omega)
  have hhigh : b < 2 ^ (k + 1) := Nat.size_le.mp (by omega)
  have habove : ∀ j, i + k < j → acc.testBit j = false ∧ b.testBit (j - i) = false := fun j hj =>
    ⟨Nat.testBit_lt_two_pow (h.trans_le (Nat.pow_le_pow_right (by decide) (by omega))),
      Nat.testBit_lt_two_pow (hhigh.trans_le (Nat.pow_le_pow_right (by decide) (by omega)))⟩
  refine Nat.lt_pow_two_of_testBit _ fun j hj => ?_
  rw [clmodStep, hb, Nat.add_sub_cancel]
  rcases Nat.eq_or_lt_of_le hj with rfl | hj
  · have htop : b.testBit k = true := Nat.testBit_of_two_pow_le_and_two_pow_add_one_gt hlow hhigh
    cases hacc : acc.testBit (i + k) <;> simp [hacc, htop, Nat.testBit_shiftLeft]
  · obtain ⟨hacc, hshift⟩ := habove j hj
    split <;> simp [hacc, hshift, Nat.testBit_shiftLeft]

/-- The steps from shift `n - 1` down to 0 leave a value of fewer bits than `b`. -/
theorem foldl_clmodStep_lt (b n acc k : Nat) (hb : b.size = k + 1) (h : acc < 2 ^ (n + k)) :
    (List.range n).reverse.foldl (clmodStep b) acc < 2 ^ k := by
  induction n generalizing acc with
  | zero => simpa using h
  | succ n ih =>
    rw [List.range_succ, List.reverse_append]
    exact ih _ (clmodStep_lt b acc n k hb h)

/-- The steps keep the polynomial modulo `b`, whatever the shifts. -/
theorem natPoly_dvd_foldl_clmodStep_sub (b acc : Nat) (shifts : List Nat) :
    natPoly b ∣ natPoly (shifts.foldl (clmodStep b) acc) - natPoly acc := by
  induction shifts generalizing acc with
  | nil => simp
  | cons i shifts ih =>
    have hstep : natPoly b ∣ natPoly (clmodStep b acc i) - natPoly acc := by
      rw [clmodStep]
      split
      · rw [natPoly_xor, natPoly_shiftLeft, add_sub_cancel_left]
        exact dvd_mul_right _ _
      · simp
    rw [List.foldl_cons, ← sub_add_sub_cancel _ (natPoly (clmodStep b acc i))]
    exact dvd_add (ih _) hstep

/-- `clmod` of two sequences' values is their polynomial remainder, as the block's own loop is (R127). -/
theorem natPoly_clmod (d p : BitSeq) (hp : p.head? = some true) :
    natPoly (clmod (val d) (val p)) = Polynomial.modByMonic (polyOf d) (polyOf p) := by
  have hsize : (val p).size = p.length - 1 + 1 := by
    rw [size_val_of_head? p hp]
    obtain ⟨p', rfl⟩ := List.head?_eq_some_iff.mp hp
    rfl
  have hfits : val d < 2 ^ ((val d).size + (p.length - 1)) :=
    (Nat.lt_size_self _).trans_le (Nat.pow_le_pow_right (by decide) (Nat.le_add_right _ _))
  rw [clmod_eq_foldl]
  refine natPoly_eq_modByMonic p d _ hp (foldl_clmodStep_lt _ _ _ _ hsize hfits) ?_
  rw [← natPoly_val p, ← natPoly_val d]
  exact natPoly_dvd_foldl_clmodStep_sub _ _ _

/-- In register terms the raw remainder is the carry-less remainder (R127). -/
theorem val_rawRemainder (d p : BitSeq) (hp : p.head? = some true) : val (rawRemainder d p) = clmod (val d) (val p) :=
  natPoly_injective (by rw [natPoly_val, polyOf_rawRemainder d p hp, natPoly_clmod d p hp])

/-- Settles O17: the loop and `clmod` both keep the polynomial modulo the divisor down to `m - 1` bits, and that remainder is
unique. -/
theorem remainderIsThePolynomialRemainder : Obligations.RemainderIsThePolynomialRemainder :=
  ⟨polyOf_xorStep, polyOf_strip, fun n d p _ => polyOf_dvd_divLoop_sub n p d,
    fun d p hp => ⟨polyOf_rawRemainder d p hp.2, val_rawRemainder d p hp.2⟩⟩

/-! ### The length of the raw remainder (R128) -/

/-- A stripped working sequence stays stripped through the loop. -/
theorem stripped_divLoop (n : Nat) (p w : BitSeq) (hw : Stripped w) : Stripped (divLoop n p w) := by
  induction n generalizing w with
  | zero => exact hw
  | succ n ih =>
    rw [divLoop_succ]
    split
    · exact ih _ (stripped_strip _)
    · exact hw

/-- Where the loop runs, the raw remainder is stripped (R128). -/
theorem stripped_rawRemainder (d p : BitSeq) (h : p.length ≤ d.length) : Stripped (rawRemainder d p) := by
  rw [rawRemainder, passBound, divLoop_succ, if_pos h]
  exact stripped_divLoop _ p _ (stripped_strip _)

theorem length_eq_size_val_of_stripped (w : BitSeq) (hw : Stripped w) : w.length = (val w).size := by
  rcases hw with rfl | hw
  · simp
  · exact (size_val_of_head? w hw).symm

/-- Settles O18: the length of the raw remainder in each case, and `seq_k` of its value for the closed form. -/
theorem remainderLengthAndClosedForm : Obligations.RemainderLengthAndClosedForm := by
  intro d p ⟨_, hp⟩
  have hshort := rawRemainder_of_short d p
  have hlt := rawRemainder_length_lt d p hp
  have hsize := fun h => length_eq_size_val_of_stripped _ (stripped_rawRemainder d p h)
  refine ⟨hshort, fun h => ⟨stripped_rawRemainder d p h, hsize h⟩, Nat.le_sub_one_of_lt hlt, fun _ => by omega, ?_⟩
  rw [← val_rawRemainder d p hp]
  split_ifs with h
  · rw [hshort h, seqOf_val]
  · rw [← hsize (Nat.le_of_not_lt h), seqOf_val]

/-! ### DIVIDE (R131) -/

/-- The checks of `SeqOperands` in the spec's own terms (R131, 60_exceptions.md R207). -/
theorem seqOperands_eq (p : Params) (snap : Snapshot) :
    seqOperands p snap =
      if snap.dinLen.toNat > p.wMax then .error .lengthOverflow
      else if snap.dinLen.toNat < 128 ∧ snap.din >>> snap.dinLen.toNat ≠ 0#128 then .error .invalidBit
      else if snap.heldLen.toNat = 0 then .error .divisorDegenerate
      else .ok (snap.dinSeq, snap.heldSeq) := by
  simp [seqOperands, strayBit, ← BitVec.toNat_inj]

/-- DIVIDE stops at the first error of `SeqOperands`. -/
theorem divideCommand_of_error (p : Params) (snap : Snapshot) (e : CommandError) (h : seqOperands p snap = .error e) :
    divideCommand p snap = .error e := by
  simp [divideCommand, h]

/-- DIVIDE writes the quotient and the raw remainder of its operands. -/
theorem divideCommand_of_ok (p : Params) (snap : Snapshot) (d g q r : BitSeq) (h : seqOperands p snap = .ok (d, g))
    (hqr : gf2Div p.quotZeroRem d g = (q, r)) :
    divideCommand p snap = .ok { rem := some (remWrite r), quot := some (word32 q.length, word128 (val q)) } := by
  simp [divideCommand, h, hqr]

/-- Settles O8, check by check. -/
theorem divideCompletes : Obligations.DivideCompletes := by
  refine ⟨rfl, fun s snap q r hp hqr => ?_⟩
  have hops := seqOperands_eq s.params snap
  rw [exec_eq_complete]
  refine congrArg Host.Outcome.next ?_
  split_ifs at hops ⊢
  · exact complete_of_error s _ snap .lengthOverflow hp (divideCommand_of_error _ snap _ hops)
  · exact complete_of_error s _ snap .invalidBit hp (divideCommand_of_error _ snap _ hops)
  · exact complete_of_error s _ snap .divisorDegenerate hp (divideCommand_of_error _ snap _ hops)
  · exact complete_of_ok s _ snap _ hp (divideCommand_of_ok _ snap _ _ q r hops hqr)

end Sys2Proof.Proofs
end

section
/-! PROOFS. The statements of spec/42_codec.md: ENCODE (R150, R151), what it leaves in the registers (R153), DECODE and its verdict
(R155, R156), the round trip (R157), and single flips (R158). -/

namespace Sys2Proof.Proofs

open Sys2Proof.Machine Sys2Proof.Laws

/-! ### The Complete step of ENCODE and of DECODE (R150, R155) -/

/-- ENCODE stops at the first error of `SeqOperands`. -/
theorem encodeCommand_of_error (p : Params) (snap : Snapshot) (e : CommandError) (h : seqOperands p snap = .error e) :
    encodeCommand p snap = .error e := by
  simp [encodeCommand, h]

/-- With its operands there, ENCODE checks the codeword's length, and then writes the codeword and the raw remainder. -/
theorem encodeCommand_eq_of_ok (p : Params) (snap : Snapshot) (q r : BitSeq)
    (h : seqOperands p snap = .ok (snap.dinSeq, snap.heldSeq))
    (hqr : gf2Div p.quotZeroRem (snap.dinSeq ++ zeros (snap.heldLen.toNat - 1)) snap.heldSeq = (q, r)) :
    encodeCommand p snap =
      if snap.dinLen.toNat + (snap.heldLen.toNat - 1) > p.wMax then .error .lengthOverflow
      else .ok { dout := some (word32 (snap.dinLen.toNat + (snap.heldLen.toNat - 1)),
                   word128 (val (snap.dinSeq ++ fixedWidth (snap.heldLen.toNat - 1) r)))
                 rem := some (remWrite r) } := by
  have hlen : snap.dinSeq.length = snap.dinLen.toNat := seqOf_length _ _
  simp [encodeCommand, h, hqr, hlen]

/-- Settles O9, check by check, the codeword's length last. -/
theorem encodeCompletes : Obligations.EncodeCompletes := by
  refine ⟨rfl, ?_⟩
  rintro s snap d p q r c hp rfl rfl rfl hqr
  have hops := seqOperands_eq s.params snap
  rw [exec_eq_complete]
  refine congrArg Host.Outcome.next ?_
  split_ifs at hops ⊢ with _ _ _ hcode
  · exact complete_of_error s _ snap .lengthOverflow hp (encodeCommand_of_error _ snap _ hops)
  · exact complete_of_error s _ snap .invalidBit hp (encodeCommand_of_error _ snap _ hops)
  · exact complete_of_error s _ snap .divisorDegenerate hp (encodeCommand_of_error _ snap _ hops)
  · exact complete_of_error s _ snap .lengthOverflow hp
      ((encodeCommand_eq_of_ok _ snap q r hops hqr).trans (if_pos hcode))
  · exact complete_of_ok s _ snap _ hp ((encodeCommand_eq_of_ok _ snap q r hops hqr).trans (if_neg hcode))

/-- DECODE stops at the first error of `SeqOperands`. -/
theorem decodeCommand_of_error (p : Params) (snap : Snapshot) (e : CommandError) (h : seqOperands p snap = .error e) :
    decodeCommand p snap = .error e := by
  simp [decodeCommand, h]

/-- DECODE writes the verdict of the raw remainder of its operands, and the raw remainder. -/
theorem decodeCommand_of_ok (p : Params) (snap : Snapshot) (d g q r : BitSeq) (h : seqOperands p snap = .ok (d, g))
    (hqr : gf2Div p.quotZeroRem d g = (q, r)) :
    decodeCommand p snap = .ok { errDetected := some (decide (true ∈ r)), rem := some (remWrite r) } := by
  simp [decodeCommand, h, hqr, verdict_eq_decide]

/-- Settles O10, check by check. -/
theorem decodeCompletes : Obligations.DecodeCompletes := by
  refine ⟨rfl, fun s snap q r hp hqr => ?_⟩
  have hops := seqOperands_eq s.params snap
  rw [exec_eq_complete]
  refine congrArg Host.Outcome.next ?_
  split_ifs at hops ⊢
  · exact complete_of_error s _ snap .lengthOverflow hp (decodeCommand_of_error _ snap _ hops)
  · exact complete_of_error s _ snap .invalidBit hp (decodeCommand_of_error _ snap _ hops)
  · exact complete_of_error s _ snap .divisorDegenerate hp (decodeCommand_of_error _ snap _ hops)
  · exact complete_of_ok s _ snap _ hp (decodeCommand_of_ok _ snap _ _ q r hops hqr)

/-- A command that completes with code 0 has succeeded, and has made its writes. -/
theorem exec_of_errCode_zero (i : Instr) (s t : State) (snap : Snapshot) (hp : s.pending = some snap)
    (he : exec i s = .next t) (h0 : t.errCode = 0#4) :
    ∃ w, runOf i s.params snap = .ok w ∧ t = s.finishCommand w := by
  rw [exec_eq_complete] at he
  obtain rfl := Host.Outcome.next.inj he
  cases hrun : runOf i s.params snap with
  | error e =>
    rw [complete_of_error s _ snap e hp hrun] at h0
    exact absurd h0 (errorCode_ne_zero e)
  | ok w => exact ⟨w, rfl, complete_of_ok s _ snap w hp hrun⟩

/-- Data within W_MAX and without a stray bit are operands, where a valid polynomial is held (R131). -/
theorem seqOperands_of_fits (p : Params) (snap : Snapshot) (hvalid : ValidPoly p snap.heldLen snap.held)
    (hlen : snap.dinLen.toNat ≤ p.wMax) (hfits : snap.din.toNat < 2 ^ snap.dinLen.toNat) :
    seqOperands p snap = .ok (snap.dinSeq, snap.heldSeq) := by
  have hheld : snap.heldLen ≠ 0#32 := by
    intro hzero
    have htwo := hvalid.1
    simp [hzero] at htwo
  simp [seqOperands, (strayBit_eq_false_iff _ _).mpr hfits, hheld, Nat.not_lt.mpr hlen]

/-- Without a stray bit, the data are all of DIN. -/
theorem val_dinSeq (snap : Snapshot) (hfits : snap.din.toNat < 2 ^ snap.dinLen.toNat) : val snap.dinSeq = snap.din.toNat := by
  rw [Snapshot.dinSeq, val_seqOf, Nat.mod_eq_of_lt hfits]

/-- With operands that fit, DECODE succeeds, and writes the verdict and the raw remainder. -/
theorem exec_decode_of_fits (s : State) (snap : Snapshot) (hp : s.pending = some snap)
    (hvalid : ValidPoly s.params snap.heldLen snap.held) (hlen : snap.dinLen.toNat ≤ s.params.wMax)
    (hfits : snap.din.toNat < 2 ^ snap.dinLen.toNat) :
    exec .decode s = .next (s.finishCommand
      { errDetected := some (decide (true ∈ rawRemainder snap.dinSeq snap.heldSeq))
        rem := some (remWrite (rawRemainder snap.dinSeq snap.heldSeq)) }) := by
  have hops := seqOperands_of_fits s.params snap hvalid hlen hfits
  rw [exec_eq_complete, complete_of_ok s (runOf .decode) snap _ hp (decodeCommand_of_ok _ snap _ _ _ _ hops rfl)]

/-! ### The verdict (R156) -/

/-- A sequence has a 1 exactly when its value is not 0. -/
theorem true_mem_iff_val_ne_zero (r : BitSeq) : true ∈ r ↔ val r ≠ 0 := by
  induction r with
  | nil => simp
  | cons b r ih => cases b <;> simp [ih]

/-- Padding adds zeros only (41_divider.md R126). -/
theorem true_mem_fixedWidth (c : Nat) (r : BitSeq) : true ∈ fixedWidth c r ↔ true ∈ r := by
  simp [fixedWidth, zeros]

/-- A register of at least as many bits as a sequence has elements holds its value. -/
theorem toNat_ofNat_val (n : Nat) (s : BitSeq) (h : s.length ≤ n) : (BitVec.ofNat n (val s)).toNat = val s := by
  rw [BitVec.toNat_ofNat, Nat.mod_eq_of_lt ((val_lt s).trans_le (Nat.pow_le_pow_right (by decide) h))]

/-- REM holds the whole value of a raw remainder by a held polynomial (R36). -/
theorem toNat_word32_val_rawRemainder (p : Params) (snap : Snapshot) (d : BitSeq) (hwf : p.wf = true)
    (hvalid : ValidPoly p snap.heldLen snap.held) :
    (word32 (val (rawRemainder d snap.heldSeq))).toNat = val (rawRemainder d snap.heldSeq) := by
  have hr := rawRemainder_held_length p snap d hvalid
  have hm := hvalid.2.1
  have hpoly := (params_bounds p hwf).1
  exact toNat_ofNat_val 32 _ (by omega)

/-- Settles O22: each of the forms of the remainder has a 1 exactly when its value is not 0. -/
theorem verdictIsWhetherRemIsNonzero : Obligations.VerdictIsWhetherRemIsNonzero := by
  rintro s snap r hwf hp hvalid hlen hfits rfl
  have hrem := toNat_word32_val_rawRemainder s.params snap snap.dinSeq hwf hvalid
  refine ⟨_, exec_decode_of_fits s snap hp hvalid hlen hfits, rfl, decide_eq_true_iff,
    decide_eq_true_iff.trans (true_mem_fixedWidth _ _).symm, ?_, (statusWord_bits _).2.2.1⟩
  refine decide_eq_true_iff.trans ((true_mem_iff_val_ne_zero _).trans ?_)
  rw [← hrem]
  exact not_congr (BitVec.toNat_inj (y := 0#32))

/-! ### The polynomial of a codeword (R152, R157) -/

theorem polyOf_append (s t : BitSeq) : polyOf (s ++ t) = polyOf s * Polynomial.X ^ t.length + polyOf t := by
  induction s with
  | nil => simp [polyOf]
  | cons b s ih => cases b <;> simp [polyOf, ih, pow_add, add_mul, add_assoc]

theorem natPoly_zero : natPoly 0 = 0 := natPoly_val []

theorem polyOf_eq_zero_iff (s : BitSeq) : polyOf s = 0 ↔ val s = 0 := by
  rw [← natPoly_val, ← natPoly_zero, natPoly_injective.eq_iff]

theorem polyOf_zeros (n : Nat) : polyOf (zeros n) = 0 := (polyOf_eq_zero_iff _).mpr (val_zeros n)

theorem polyOf_fixedWidth (c : Nat) (r : BitSeq) : polyOf (fixedWidth c r) = polyOf r := by
  rw [fixedWidth, polyOf_append, polyOf_zeros, zero_mul, zero_add]

/-- The raw remainder of the padded data (R151). -/
def encodeRemainder (snap : Snapshot) : BitSeq :=
  rawRemainder (snap.dinSeq ++ zeros (snap.heldLen.toNat - 1)) snap.heldSeq

/-- The codeword of the data of a snapshot: the fixed-width remainder appended to the data (R152). -/
def codeword (snap : Snapshot) : BitSeq := snap.dinSeq ++ fixedWidth (snap.heldLen.toNat - 1) (encodeRemainder snap)

theorem encodeRemainder_fixedWidth_length (p : Params) (snap : Snapshot) (hvalid : ValidPoly p snap.heldLen snap.held) :
    (fixedWidth (snap.heldLen.toNat - 1) (encodeRemainder snap)).length = snap.heldLen.toNat - 1 :=
  fixedWidth_length _ _ (rawRemainder_held_length p snap _ hvalid)

theorem codeword_length (p : Params) (snap : Snapshot) (hvalid : ValidPoly p snap.heldLen snap.held) :
    (codeword snap).length = snap.dinLen.toNat + (snap.heldLen.toNat - 1) := by
  rw [codeword, List.length_append, encodeRemainder_fixedWidth_length p snap hvalid, Snapshot.dinSeq, seqOf_length]

/-- A codeword's value is the data's above the remainder's. -/
theorem val_codeword (p : Params) (snap : Snapshot) (hvalid : ValidPoly p snap.heldLen snap.held) :
    val (codeword snap) = val snap.dinSeq * 2 ^ (snap.heldLen.toNat - 1) + val (encodeRemainder snap) := by
  rw [codeword, val_append, encodeRemainder_fixedWidth_length p snap hvalid, fixedWidth, val_append, val_zeros, Nat.zero_mul,
    Nat.zero_add]

/-- The generator divides every codeword (R157): the remainder is congruent to the padded data, and over GF(2) adding it takes it
away. -/
theorem heldSeq_dvd_codeword (p : Params) (snap : Snapshot) (hvalid : ValidPoly p snap.heldLen snap.held) :
    polyOf snap.heldSeq ∣ polyOf (codeword snap) := by
  have hcongr : polyOf snap.heldSeq ∣
      polyOf (encodeRemainder snap) - polyOf (snap.dinSeq ++ zeros (snap.heldLen.toNat - 1)) :=
    polyOf_dvd_divLoop_sub _ _ _
  have hsum : polyOf (codeword snap) =
      polyOf (encodeRemainder snap) - polyOf (snap.dinSeq ++ zeros (snap.heldLen.toNat - 1)) := by
    rw [codeword, polyOf_append, polyOf_append, polyOf_fixedWidth, polyOf_zeros, zeros_length,
      encodeRemainder_fixedWidth_length p snap hvalid, CharTwo.sub_eq_add, add_zero, add_comm]
  rwa [hsum]

/-! ### What a successful ENCODE leaves (R153) -/

/-- DOUT and REM hold the codeword and the raw remainder of the snapshot's data, no bit of them cut off. -/
structure HoldsCodeword (snap : Snapshot) (t : State) : Prop where
  fits : (codeword snap).length ≤ t.params.wMax
  doutLen : t.doutLen.toNat = (codeword snap).length
  dout : (quadValue t.dout).toNat = val (codeword snap)
  rem : t.rem.toNat = val (encodeRemainder snap)

theorem holdsCodeword_of_encodeCommand (s : State) (snap : Snapshot) (w : Writes) (hwf : s.params.wf = true)
    (hvalid : ValidPoly s.params snap.heldLen snap.held) (h : encodeCommand s.params snap = .ok w) :
    HoldsCodeword snap (s.finishCommand w) := by
  obtain ⟨-, c, r, rfl, rfl, hlen, rfl⟩ := encodeCommand_ok s.params snap w h
  have hmax := (params_bounds s.params hwf).2
  have hlength : (codeword snap).length = snap.dinSeq.length + (snap.heldLen.toNat - 1) := by
    rw [codeword_length s.params snap hvalid, Snapshot.dinSeq, seqOf_length]
  refine ⟨hlength.trans_le hlen, ?_, ?_, toNat_word32_val_rawRemainder s.params snap _ hwf hvalid⟩
  · rw [hlength]
    exact Nat.mod_eq_of_lt (by omega)
  · exact (congrArg BitVec.toNat (quadValue_quadOf _)).trans (toNat_ofNat_val 128 (codeword snap) (by omega))

/-- An ENCODE that completes with code 0 had data without a stray bit, and leaves their codeword. -/
theorem holdsCodeword_of_exec_encode (s t : State) (snap : Snapshot) (hwf : s.params.wf = true)
    (hp : s.pending = some snap) (hvalid : ValidPoly s.params snap.heldLen snap.held) (he : exec .encode s = .next t)
    (h0 : t.errCode = 0#4) :
    t.params = s.params ∧ snap.din.toNat < 2 ^ snap.dinLen.toNat ∧ HoldsCodeword snap t := by
  obtain ⟨w, hrun, rfl⟩ := exec_of_errCode_zero .encode s t snap hp he h0
  obtain ⟨hops, -⟩ := encodeCommand_ok s.params snap w hrun
  obtain ⟨-, hfits, -⟩ := seqOperands_ok s.params snap _ _ hops
  exact ⟨rfl, hfits, holdsCodeword_of_encodeCommand s snap w hwf hvalid hrun⟩

/-- Settles O21: the codeword is the sum of the shifted data and a remainder below `2^c`, so its two parts do not meet. -/
theorem encodeLeavesDataAboveCheckBits : Obligations.EncodeLeavesDataAboveCheckBits := by
  rintro s t snap L c hwf hp hvalid rfl rfl he h0
  obtain ⟨hparams, hfits, hcode⟩ := holdsCodeword_of_exec_encode s t snap hwf hp hvalid he h0
  have hlen := codeword_length s.params snap hvalid
  have hrem : t.rem.toNat < 2 ^ (snap.heldLen.toNat - 1) := by
    rw [hcode.rem]
    exact (val_lt _).trans_le (Nat.pow_le_pow_right (by decide) (rawRemainder_held_length s.params snap _ hvalid))
  have hdout : (quadValue t.dout).toNat = snap.din.toNat <<< (snap.heldLen.toNat - 1) ||| t.rem.toNat := by
    rw [hcode.dout, val_codeword s.params snap hvalid, val_dinSeq snap hfits, ← hcode.rem, ← Nat.shiftLeft_add_eq_or_of_lt hrem,
      Nat.shiftLeft_eq]
  have hcodeLt : (quadValue t.dout).toNat < 2 ^ (snap.dinLen.toNat + (snap.heldLen.toNat - 1)) := by
    rw [hcode.dout, ← hlen]
    exact val_lt _
  refine ⟨BitVec.eq_of_toNat_eq ?_, hcode.doutLen.trans hlen, hcodeLt, hrem, BitVec.eq_of_toNat_eq ?_⟩
  · have hshift : snap.din.toNat <<< (snap.heldLen.toNat - 1) < 2 ^ 128 :=
      (Nat.left_le_or.trans_eq hdout.symm).trans_lt (quadValue t.dout).isLt
    have hwide : t.rem.toNat < 2 ^ 128 := t.rem.isLt.trans (by decide)
    rw [hdout, BitVec.toNat_or, BitVec.toNat_shiftLeft, BitVec.toNat_setWidth, Nat.mod_eq_of_lt hshift,
      Nat.mod_eq_of_lt hwide]
  · rw [BitVec.toNat_ushiftRight, hdout, Nat.shiftRight_or_distrib, Nat.shiftLeft_shiftRight,
      Nat.shiftRight_eq_div_pow, Nat.div_eq_of_lt hrem, Nat.or_zero]

/-! ### The laws of the codec (R157, R158) -/

/-- A division leaves a remainder with a 1 exactly when the divisor does not divide the dividend (41_divider.md R127). -/
theorem true_mem_rawRemainder (d p : BitSeq) (hp : p.head? = some true) :
    true ∈ rawRemainder d p ↔ ¬ polyOf p ∣ polyOf d := by
  rw [true_mem_iff_val_ne_zero, ne_eq, ← polyOf_eq_zero_iff, polyOf_rawRemainder d p hp,
    Polynomial.modByMonic_eq_zero_iff_dvd (polyOf_monic_degree p hp).1]

/-- DECODE checks divisibility only (R155): of received bits that fit, by the held polynomial. -/
theorem exec_decode_verdict (u : State) (received : Snapshot) (hp : u.pending = some received)
    (hvalid : ValidPoly u.params received.heldLen received.held) (hlen : received.dinLen.toNat ≤ u.params.wMax)
    (hfits : received.din.toNat < 2 ^ received.dinLen.toNat) :
    ∃ v, exec .decode u = .next v ∧ v.errCode = 0#4 ∧
      (v.errDetected = true ↔ ¬ polyOf received.heldSeq ∣ natPoly received.din.toNat) := by
  refine ⟨_, exec_decode_of_fits u received hp hvalid hlen hfits, rfl, decide_eq_true_iff.trans ?_⟩
  rw [← val_dinSeq received hfits, natPoly_val, true_mem_rawRemainder _ _ (heldSeq_head? u.params received hvalid)]

/-- DECODE of a codeword with any bits of it inverted: the verdict is 0 exactly when the generator divides the
polynomial of the inverted bits. -/
theorem exec_decode_of_codeword_xor (t u : State) (snap received : Snapshot) (e : Wide)
    (hvalid : ValidPoly t.params snap.heldLen snap.held) (hcode : HoldsCodeword snap t) (hparams : u.params = t.params)
    (hp : u.pending = some received) (hheldLen : received.heldLen = snap.heldLen) (hheld : received.held = snap.held)
    (hdinLen : received.dinLen = t.doutLen) (hdin : received.din = quadValue t.dout ^^^ e)
    (he : e.toNat < 2 ^ t.doutLen.toNat) :
    ∃ v, exec .decode u = .next v ∧ v.errCode = 0#4 ∧
      (v.errDetected = true ↔ ¬ polyOf snap.heldSeq ∣ natPoly e.toNat) := by
  have hdout : (quadValue t.dout).toNat < 2 ^ t.doutLen.toNat := by
    rw [hcode.dout, hcode.doutLen]
    exact val_lt _
  have hbits : received.din.toNat = (quadValue t.dout).toNat ^^^ e.toNat := by rw [hdin, BitVec.toNat_xor]
  have hseq : received.heldSeq = snap.heldSeq := by rw [Snapshot.heldSeq, hheldLen, hheld, Snapshot.heldSeq]
  have hpoly : natPoly received.din.toNat = polyOf (codeword snap) + natPoly e.toNat := by
    rw [hbits, natPoly_xor, hcode.dout, natPoly_val]
  rw [← dvd_add_right (heldSeq_dvd_codeword t.params snap hvalid), ← hpoly, ← hseq]
  refine exec_decode_verdict u received hp ?_ ?_ ?_
  · rwa [hparams, hheldLen, hheld]
  · rw [hparams, hdinLen, hcode.doutLen]
    exact hcode.fits
  · rw [hbits, hdinLen]
    exact Nat.xor_lt_two_pow hdout he

/-- Settles O23: the codeword is received with no bit inverted, and the generator divides 0. -/
theorem encodeThenDecodeDetectsNoError : Obligations.EncodeThenDecodeDetectsNoError := by
  intro s snap hwf hp hvalid hfits hlen
  have hops := seqOperands_of_fits s.params snap hvalid (by omega) hfits
  have hrun := (encodeCommand_eq_of_ok s.params snap _ _ hops rfl).trans (if_neg (Nat.not_lt.mpr hlen))
  have hcode := holdsCodeword_of_encodeCommand s snap _ hwf hvalid hrun
  refine ⟨_, (exec_eq_complete .encode s).trans (congrArg _ (complete_of_ok s _ snap _ hp hrun)), rfl, ?_⟩
  intro u received hparams hup hheldLen hheld hdinLen hdin
  obtain ⟨v, hv, hv0, hverdict⟩ := exec_decode_of_codeword_xor (s.finishCommand _) u snap received 0#128 hvalid hcode hparams
    hup hheldLen hheld hdinLen (by rw [hdin, BitVec.xor_zero]) (Nat.two_pow_pos _)
  exact ⟨v, hv, hv0, Bool.eq_false_iff.mpr fun hdetected => hverdict.mp hdetected (natPoly_zero ▸ dvd_zero _)⟩

theorem natPoly_two_pow (k : Nat) : natPoly (2 ^ k) = Polynomial.X ^ k := by
  have hone : natPoly 1 = 1 := (natPoly_val [true]).trans (by simp [polyOf])
  rw [← Nat.one_shiftLeft, natPoly_shiftLeft, hone, one_mul]

/-- Settles O24: the inverted bits are the one at position `j`, of polynomial `x^(N-1-j)`. -/
theorem singleFlipDetectedUnlessGeneratorDividesThePower :
    Obligations.SingleFlipDetectedUnlessGeneratorDividesThePower := by
  intro s t u snap received j hwf hp hvalid he h0 hparams hup hheldLen hheld hdinLen hj hdin
  obtain ⟨htparams, -, hcode⟩ := holdsCodeword_of_exec_encode s t snap hwf hp hvalid he h0
  have hN : t.doutLen.toNat ≤ 128 := by
    rw [hcode.doutLen]
    exact hcode.fits.trans (htparams ▸ (params_bounds s.params hwf).2)
  have hflip : (1#128 <<< (t.doutLen.toNat - 1 - j)).toNat = 2 ^ (t.doutLen.toNat - 1 - j) :=
    BitVec.toNat_twoPow_of_lt (by omega)
  rw [← natPoly_two_pow, ← hflip]
  refine exec_decode_of_codeword_xor t u snap received _ (htparams ▸ hvalid) hcode (hparams.trans htparams.symm) hup
    hheldLen hheld hdinLen hdin ?_
  rw [hflip]
  exact Nat.pow_lt_pow_right (by decide) (by omega)

/-- A generator has the single term `x^c` exactly when its first element is its only 1. -/
theorem polyOf_eq_X_pow_iff (p : BitSeq) (hp : p.head? = some true) :
    polyOf p = Polynomial.X ^ (p.length - 1) ↔ p.count true = 1 := by
  obtain ⟨p', rfl⟩ := List.head?_eq_some_iff.mp hp
  have hpoly : polyOf (true :: p') = Polynomial.X ^ p'.length + polyOf p' := rfl
  rw [hpoly, List.length_cons, Nat.add_sub_cancel, add_eq_left, polyOf_eq_zero_iff, List.count_cons_self,
    Nat.add_eq_right, List.count_eq_zero, true_mem_iff_val_ne_zero, not_not]

/-- A generator that divides a power of `x` is itself one, `x` being prime: it has one term, of a degree not above that power's. -/
theorem polyOf_dvd_X_pow_iff (p : BitSeq) (k : Nat) (hp : p.head? = some true) :
    polyOf p ∣ Polynomial.X ^ k ↔ p.count true = 1 ∧ p.length - 1 ≤ k := by
  obtain ⟨hmonic, hdegree⟩ := polyOf_monic_degree p hp
  rw [← polyOf_eq_X_pow_iff p hp]
  constructor
  · intro hdvd
    obtain ⟨i, hik, hassoc⟩ := (dvd_prime_pow Polynomial.prime_X k).mp hdvd
    have hpow : polyOf p = Polynomial.X ^ i :=
      Polynomial.eq_of_monic_of_associated hmonic (Polynomial.monic_X_pow i) hassoc
    have hi : i = p.length - 1 := by
      rw [hpow, Polynomial.degree_X_pow] at hdegree
      exact_mod_cast hdegree
    exact hi ▸ ⟨hpow, hik⟩
  · rintro ⟨hpow, hk⟩
    rw [hpow]
    exact pow_dvd_pow _ hk

/-- Settles O25: by the law of O24 and the powers of `x` that a generator divides. -/
theorem singleFlipsByNumberOfTerms : Obligations.SingleFlipsByNumberOfTerms := by
  intro s t u snap received j hwf hp hvalid he h0 hparams hup hheldLen hheld hdinLen hj hdin
  obtain ⟨v, hv, hv0, hverdict⟩ := singleFlipDetectedUnlessGeneratorDividesThePower s t u snap received j hwf hp hvalid he
    h0 hparams hup hheldLen hheld hdinLen hj hdin
  have hheldLength : snap.heldSeq.length = snap.heldLen.toNat := seqOf_length _ _
  rw [polyOf_dvd_X_pow_iff _ _ (heldSeq_head? s.params snap hvalid), hheldLength] at hverdict
  refine ⟨v, hv, hv0, fun htwo => hverdict.mpr ?_, fun hone => hverdict.trans ?_⟩ <;> omega

end Sys2Proof.Proofs
end

section
/-! PROOFS. The statements of spec/60_exceptions.md: the effects of a command error (R200), the error codes (R201), and their order for
DIVIDE, ENCODE and DECODE (R207). -/

namespace Sys2Proof.Proofs

open Sys2Proof.Machine Sys2Proof.Laws

/-! ### The code a Complete step writes (R39, R200) -/

/-- A Complete step leaves nothing pending, and the code of the command's result in ERR_CODE. -/
theorem complete_pending_errCode (s : State) (run : Params → Snapshot → Except CommandError Writes) (snap : Snapshot)
    (hp : s.pending = some snap) :
    (s.complete run).pending = none ∧ (s.complete run).errCode = resultCode (run s.params snap) := by
  cases hr : run s.params snap with
  | error e => rw [complete_of_error s run snap e hp hr]; exact ⟨rfl, rfl⟩
  | ok w => rw [complete_of_ok s run snap w hp hr]; exact ⟨rfl, rfl⟩

/-- A Complete step that leaves a code other than 0 has written this code, and nothing else. -/
theorem complete_of_errCode_ne_zero (s : State) (run : Params → Snapshot → Except CommandError Writes) (snap : Snapshot)
    (hp : s.pending = some snap) (hne : (s.complete run).errCode ≠ 0#4) :
    s.complete run = { s with errCode := (s.complete run).errCode, pending := none } := by
  cases hr : run s.params snap with
  | error e => rw [complete_of_error s run snap e hp hr]; rfl
  | ok w =>
    rw [complete_of_ok s run snap w hp hr] at hne
    exact absurd rfl hne

/-! ### The operand errors in their order (R207) -/

/-- The checks of `SeqOperands`, a stray bit being a value of DIN that does not fit DIN_LEN (R202). -/
theorem seqOperands_eq_of_fits (p : Params) (snap : Snapshot) :
    seqOperands p snap =
      if snap.dinLen.toNat > p.wMax then .error .lengthOverflow
      else if ¬ snap.din.toNat < 2 ^ snap.dinLen.toNat then .error .invalidBit
      else if snap.heldLen = 0#32 then .error .divisorDegenerate
      else .ok (snap.dinSeq, snap.heldSeq) := by
  simp only [seqOperands, ← strayBit_eq_false_iff, Bool.not_eq_false]

/-- Every command but SETPOLY stops at the first error of `SeqOperands`. -/
theorem runOf_of_operandError (i : Instr) (p : Params) (snap : Snapshot) (e : CommandError) (hi : i ≠ .setpoly)
    (h : seqOperands p snap = .error e) : runOf i p snap = .error e := by
  cases i with
  | setpoly => exact absurd rfl hi
  | divide => exact divideCommand_of_error p snap e h
  | encode => exact encodeCommand_of_error p snap e h
  | decode => exact decodeCommand_of_error p snap e h

/-- With its operands there, only an ENCODE whose codeword is over W_MAX still fails. -/
theorem resultCode_runOf_of_operands (i : Instr) (p : Params) (snap : Snapshot) (hi : i ≠ .setpoly)
    (h : seqOperands p snap = .ok (snap.dinSeq, snap.heldSeq)) :
    resultCode (runOf i p snap) =
      if i = .encode ∧ snap.dinLen.toNat + snap.heldLen.toNat - 1 > p.wMax then 3#4 else 0#4 := by
  cases i with
  | setpoly => exact absurd rfl hi
  | divide => rw [runOf, divideCommand_of_ok p snap _ _ _ _ h rfl]; rfl
  | decode => rw [runOf, decodeCommand_of_ok p snap _ _ _ _ h rfl]; rfl
  | encode =>
    obtain ⟨-, -, hheld, -⟩ := seqOperands_ok p snap _ _ h
    have hpos : 1 ≤ snap.heldLen.toNat := Nat.one_le_iff_ne_zero.mpr fun h0 => hheld (BitVec.eq_of_toNat_eq h0)
    rw [runOf, encodeCommand_eq_of_ok p snap _ _ h rfl, Nat.add_sub_assoc hpos]
    simp only [true_and]
    split_ifs <;> rfl

/-- The code of a DIVIDE, ENCODE or DECODE: that of the first error in R207's order, or 0. -/
theorem resultCode_runOf (i : Instr) (p : Params) (snap : Snapshot) (hi : i ≠ .setpoly) :
    resultCode (runOf i p snap) =
      if snap.dinLen.toNat > p.wMax then 3#4
      else if ¬ snap.din.toNat < 2 ^ snap.dinLen.toNat then 1#4
      else if snap.heldLen = 0#32 then 2#4
      else if i = .encode ∧ snap.dinLen.toNat + snap.heldLen.toNat - 1 > p.wMax then 3#4
      else 0#4 := by
  have hops := seqOperands_eq_of_fits p snap
  split_ifs at hops ⊢ with _ _ _ hcode
  · exact congrArg resultCode (runOf_of_operandError i p snap _ hi hops)
  · exact congrArg resultCode (runOf_of_operandError i p snap _ hi hops)
  · exact (resultCode_runOf_of_operands i p snap hi hops).trans (if_pos hcode)
  · exact (resultCode_runOf_of_operands i p snap hi hops).trans (if_neg hcode)
  · exact congrArg resultCode (runOf_of_operandError i p snap _ hi hops)

/-- Settles O11: the code in ERR_CODE is that of the command's result. -/
theorem operandErrorsAreReportedInOrder : Obligations.OperandErrorsAreReportedInOrder := by
  intro s snap i hp hi
  have hne : i ≠ .setpoly := by rcases hi with rfl | rfl | rfl <;> decide
  exact ⟨_, exec_eq_complete i s,
    (complete_pending_errCode s _ snap hp).2.trans (resultCode_runOf i s.params snap hne)⟩

/-! ### A failing command (R200) -/

/-- In the engine's turn the step is the Complete step of the state whose turn is taken off the schedule. -/
theorem step_eq_complete (s : State) (hn : s.nextTurn = .engine) : step s = .next (s.popTurn.complete commandResult) := by
  simp only [step, hn, engineTurn_eq_complete]

/-- With nothing pending BUSY reads 0, and a CMD write issues its word: nothing has to be acknowledged first. -/
theorem idle_busy_cmdWrite (t : State) (hp : t.pending = none) :
    (t.readReg .status).getLsbD 0 = false ∧
      ∀ v, t.memWrite 0x04 4 v = .ok { t with pending := some (t.snapshot v) } := by
  refine ⟨?_, fun v => (cmdWriteIssuesOrIsDropped t v).2 hp⟩
  rw [State.readReg, (statusWord_bits t).1, State.busy, hp]
  rfl

/-- Settles O12: an error is `failCommand`, which leaves nothing pending, and a code other than 0 is an error's. -/
theorem failingCommandWritesOnlyErrCode : Obligations.FailingCommandWritesOnlyErrCode := by
  constructor
  · intro s snap e hn hp he
    refine ⟨s.popTurn.failCommand e, ?_, rfl, idle_busy_cmdWrite _ rfl⟩
    rw [step_eq_complete s hn, complete_of_error s.popTurn _ snap e hp he]
  · intro s snap i hp
    exact ⟨_, exec_eq_complete i s, (complete_pending_errCode s _ snap hp).1, complete_of_errCode_ne_zero s _ snap hp⟩

/-! ### The error codes (R201) -/

theorem resultCode_le_four (r : Except CommandError Writes) : (resultCode r).toNat ≤ 4 := by
  cases r with
  | error e => exact errorCode_le_four e
  | ok w => exact Nat.zero_le 4

/-- No command completes with IllegalCommand's code: the checks of R206 and R207 have the codes 1 to 3. -/
theorem resultCode_runOf_ne_four (i : Instr) (p : Params) (snap : Snapshot) : resultCode (runOf i p snap) ≠ 4#4 := by
  by_cases hi : i = .setpoly
  · rw [hi, runOf, setPoly_eq]
    split_ifs <;> simp [resultCode, errorCode]
  · rw [resultCode_runOf i p snap hi]
    split_ifs <;> decide

/-- The code of a pending word is 4 exactly when the word is illegal (R205). -/
theorem resultCode_commandResult_eq_four_iff (p : Params) (snap : Snapshot) :
    resultCode (commandResult p snap) = 4#4 ↔ ∃ why, decode snap.word = .illegal why := by
  cases hd : decode snap.word with
  | command i =>
    rw [commandResult_of_command p snap i hd]
    simp [resultCode_runOf_ne_four]
  | illegal why =>
    rw [commandResult_of_illegal p snap why hd]
    exact iff_of_true rfl ⟨why, rfl⟩

/-- Settles O40: a Complete step writes the code of its command's result, and no other turn writes a code but reset's 0. -/
theorem errCodesAreZeroToFour : Obligations.ErrCodesAreZeroToFour := by
  refine ⟨rfl, rfl, rfl, rfl, fun s t hs h => ?_, fun s t snap hn hp h => ?_⟩
  · obtain ⟨hcomplete, hidle, hhost, hreset⟩ := errCodeIsWrittenAtComplete s t h
    cases hn : s.nextTurn with
    | host => rw [hhost hn]; exact hs
    | reset => rw [hreset hn]; exact Nat.zero_le 4
    | engine =>
      cases hp : s.pending with
      | none => rw [hidle hn hp]; exact hs
      | some snap => rw [hcomplete snap hn hp]; exact resultCode_le_four _
  · rw [(errCodeIsWrittenAtComplete s t h).1 snap hn hp]
    exact ⟨resultCode_le_four _, resultCode_commandResult_eq_four_iff s.params snap⟩

end Sys2Proof.Proofs
end

section
/-! PROOFS. The statements of spec/70_reset_and_hazards.md: what reset gives the registers (R250), and the invariant of the state after
reset (R44 among its parts). -/

namespace Sys2Proof.Proofs

open Sys2Proof.Machine Sys2Proof.Laws

/-! ### Reset (R250) -/

/-- STATUS reads 0 after reset: none of its fields is set. -/
theorem statusWord_resetBlock (s : State) : s.resetBlock.statusWord = 0#32 := by
  simp [State.statusWord, State.polyValid, State.busy]

/-- Every register but CAP reads 0 after reset (R21). -/
theorem readReg_resetBlock (s : State) (r : Reg) (hr : r ≠ .cap) : s.resetBlock.readReg r = 0#32 := by
  cases r with
  | cap => exact absurd rfl hr
  | status => exact statusWord_resetBlock s
  | _ => rfl

/-- At reset's turn the step is the reset of the block, in every state. -/
theorem step_eq_resetBlock (s : State) (hn : s.nextTurn = .reset) : step s = .next s.popTurn.resetBlock := by
  simp only [step, hn]

/-- Settles O44, register by register; CAP is a function of the parameters, which reset keeps. -/
theorem resetGivesEveryRegisterItsResetValue : Obligations.ResetGivesEveryRegisterItsResetValue :=
  fun s hn => ⟨s.popTurn.resetBlock, step_eq_resetBlock s hn, readReg_resetBlock s.popTurn, rfl, rfl, rfl, rfl, rfl⟩

/-! ### The invariant after reset -/

/-- Empty results fit: each value is 0, and so is each length. -/
theorem resetWith_resultsOk (p : Params) : ResultsOk (State.resetWith p) := by
  simp [ResultsOk, State.resetWith, quadValue, Quad.zero]

/-- After reset the held polynomial is empty, nothing is pending and the host has no temporaries; the bounds are the parameters'
own. -/
theorem resetWith_inv (p : Params) (hp : p.wf = true) : Inv (State.resetWith p) where
  params := hp
  held := .inl ⟨rfl, rfl⟩
  pending := by rintro snap ⟨⟩
  results := resetWith_resultsOk p
  errCode := Nat.zero_le 4
  temps := rfl

/-- Settles O45: the default parameters are within their bounds. -/
theorem resetStateMeetsTheInvariant : Obligations.ResetStateMeetsTheInvariant :=
  ⟨resetWith_inv, resetWith_inv Params.default (by decide)⟩

end Sys2Proof.Proofs
end
